-- ==== Sys2Proof/Config.lean ====
section
/-! DEFINITION. Config.lean: the implementation parameters of 00_scope.md R5, each a constant at the value this hardware
takes, and the one free value. The rest of the model reads them by these names. A parameter that is a policy is an
enumeration of the values for which the spec gives a behaviour; the shared operation that the policy decides matches on it
(log entry 15). -/

namespace Sys2Proof

/-- `W`: the width in bits of every value (00_scope.md R5, D2; log entry 1). -/
abbrev Config.W : Nat := 64

/-- `ADDR_MAX` = `MAX_W`, the largest address (00_scope.md R5, D2, D6). -/
def Config.addrMax : Nat := 2 ^ (Config.W - 1) - 1

/-- `MIN_W` = -2^(W-1) (00_scope.md R5). -/
def Config.minW : Int := -((2 ^ (Config.W - 1) : Nat) : Int)

/-- `MAX_W` = 2^(W-1) - 1 (00_scope.md R5). -/
def Config.maxW : Int := (Config.addrMax : Int)

/-- `PC_RESET`: the value of pc after reset (00_scope.md R5, D5). -/
def Config.pcReset : BitVec Config.W := 0

/-- The values of `OVF_POLICY`. The spec gives one: an exact result outside Int_W is never wrapped (D3, U5). -/
inductive OvfPolicy where
  /-- The error ArithmeticOverflow. -/
  | fault
  deriving DecidableEq, Repr

/-- The values of `NEG_WORD_POLICY`. The spec gives one (D4, U3). -/
inductive NegWordPolicy where
  /-- The error InvalidOpcode. -/
  | fault
  deriving DecidableEq, Repr

/-- The values of `JUMP_BOUND`. A bound would be the variant that 00_scope.md R4 leaves out; its extent is defined nowhere
(60_exceptions.md R148) and its error code 5 is never produced (U15). -/
inductive JumpBound where
  /-- A target is checked against no extent. -/
  | none
  deriving DecidableEq, Repr

/-- The values of `JUMP_NEG_CHECK` (D7, U12). -/
inductive JumpNegCheck where
  /-- A jump that is not taken does not check its target. -/
  | whenTaken
  /-- Every jump checks its target. -/
  | always
  deriving DecidableEq, Repr

/-- `OVF_POLICY` (00_scope.md R5, D3). -/
def Config.ovfPolicy : OvfPolicy := .fault

/-- `NEG_WORD_POLICY` (00_scope.md R5, D4). -/
def Config.negWordPolicy : NegWordPolicy := .fault

/-- `JUMP_BOUND` (00_scope.md R5, D6). -/
def Config.jumpBound : JumpBound := .none

/-- `JUMP_NEG_CHECK` (00_scope.md R5, D7). -/
def Config.jumpNegCheck : JumpNegCheck := .whenTaken

/-- `STRICT_MODE_DIGITS`: whether mode digits of parameters an instruction does not use are checked (00_scope.md R5, D16). -/
def Config.strictModeDigits : Bool := false

/-- DESIGN CHOICE (log entry 5), safe. FREE VALUE: what a latch holds once the spec says its value is unspecified
(10_state.md R17, R18, R24; 93_implementation_defined.md U8). It has no body, so nothing can be proved of a value of it;
the model applies it to the counter `State.draws`. -/
opaque Config.freeLatch : Nat → BitVec Config.W

end Sys2Proof
end

