-- ==== Sys2Proof/Word.lean ====
section
/-! DEFINITION. Word.lean: the one word type. Every value of the machine (a memory cell, a parameter, pc, rb, an input or
output value) is a W-bit two's complement integer (00_scope.md R5, R6; decision D2; log entry 1). The rules
compute on mathematical integers: a word's integer is `BitVec.toInt`, and only `fit` (Machine/Ops.lean) goes back. -/

namespace Sys2Proof

/-- An integer value of `Int_W` (00_scope.md R6), held as W bits in two's complement. -/
abbrev Word := BitVec Config.W

end Sys2Proof
end

