-- ==== Sys2Proof/Syntax.lean ====
section
/-! DEFINITION. Syntax.lean: the ten instructions, one constructor per row of spec/opcode_table.json.

An `Instr` is what the spec calls the decoded opcode: the instruction code and, for each parameter the instruction has,
its mode digit (30_encoding.md R51; 10_state.md R20). The digit is kept as the decimal digit it is (0 to 9), because an
illegal digit raises its error only when its parameter is resolved (30_encoding.md R54; 40_decode_and_operands.md R74):
the digits 3 to 9 are part of the syntax and have a meaning. The parameter cells are memory and are read when the
instruction runs (40_decode_and_operands.md R75, R76; log entry 12). -/

namespace Sys2Proof

/-- A mode digit of an instruction word: one decimal digit (00_scope.md R6, `digit`). -/
abbrev ModeDigit := Fin 10

/-- The addressing modes (30_encoding.md R52). -/
inductive Mode where
  /-- Digit 0: the parameter cell holds an address. -/
  | position
  /-- Digit 1: the parameter cell holds the operand itself. -/
  | immediate
  /-- Digit 2: the parameter cell holds an offset from the relative base. -/
  | relative
  deriving DecidableEq, Repr

/-- The instruction set (30_encoding.md R57). `m0`, `m1`, `m2` are the mode digits of parameters 0, 1, 2. -/
inductive Instr where
  /-- `add` (code 1), F3IIO: parameters in, in, out. -/
  | add (m0 m1 m2 : ModeDigit)
  /-- `mul` (code 2), F3IIO: parameters in, in, out. -/
  | mul (m0 m1 m2 : ModeDigit)
  /-- `in` (code 3), F1O: parameter out. (`in` is a word of Lean's own.) -/
  | inp (m0 : ModeDigit)
  /-- `out` (code 4), F1I: parameter in. -/
  | out (m0 : ModeDigit)
  /-- `jt` (code 5), F2II: parameters in, in. -/
  | jt (m0 m1 : ModeDigit)
  /-- `jf` (code 6), F2II: parameters in, in. -/
  | jf (m0 m1 : ModeDigit)
  /-- `lt` (code 7), F3IIO: parameters in, in, out. -/
  | lt (m0 m1 m2 : ModeDigit)
  /-- `eq` (code 8), F3IIO: parameters in, in, out. -/
  | eq (m0 m1 m2 : ModeDigit)
  /-- `arb` (code 9), F1I: parameter in. -/
  | arb (m0 : ModeDigit)
  /-- `hlt` (code 99), F0: no parameter. -/
  | hlt
  deriving DecidableEq, Repr

end Sys2Proof
end

