-- ==== Sys2Proof/WellFormed.lean ====
section
/-! DEFINITION. WellFormed.lean: which mode digits are legal (30_encoding.md R60, R61). An ill-formed instruction still
has a meaning: running it raises the error of its first illegal parameter, in order. -/

namespace Sys2Proof

/-- An input parameter's legal mode digits: 0, 1, 2 (30_encoding.md R61). -/
def legalIn (d : ModeDigit) : Bool := decide (d.val ≤ 2)

/-- An output parameter's legal mode digits: 0 and 2 (30_encoding.md R60, R61: a write target cannot be immediate). -/
def legalOut (d : ModeDigit) : Bool := decide (d.val = 0) || decide (d.val = 2)

/-- Every parameter of the instruction has a legal mode digit (the table of 30_encoding.md R61). -/
def Instr.wf : Instr → Bool
  | .add m0 m1 m2 => legalIn m0 && legalIn m1 && legalOut m2
  | .mul m0 m1 m2 => legalIn m0 && legalIn m1 && legalOut m2
  | .inp m0 => legalOut m0
  | .out m0 => legalIn m0
  | .jt m0 m1 => legalIn m0 && legalIn m1
  | .jf m0 m1 => legalIn m0 && legalIn m1
  | .lt m0 m1 m2 => legalIn m0 && legalIn m1 && legalOut m2
  | .eq m0 m1 m2 => legalIn m0 && legalIn m1 && legalOut m2
  | .arb m0 => legalIn m0
  | .hlt => true

end Sys2Proof
end

