-- ==== Sys2Proof/Decode.lean ====
section
/-! DEFINITION. Decode.lean: the decoder, a total pure function of the instruction word (40_decode_and_operands.md R72,
R73), and the encoder (30_encoding.md R61), written from the same table (R57). -/

namespace Sys2Proof

/-- `digit(w, j) = floor(w / 10^j) mod 10` (00_scope.md R6). -/
def digit (w j : Nat) : ModeDigit := ⟨w / 10 ^ j % 10, Nat.mod_lt _ (by decide)⟩

/-- The mode digit of parameter `k` is digit `k + 2` of the word (30_encoding.md R51). -/
def modeDigit (w k : Nat) : ModeDigit := digit w (k + 2)

/-- The addressing mode a digit names; 3 to 9 name none (30_encoding.md R52; 40_decode_and_operands.md R74). -/
def modeOf (d : ModeDigit) : Option Mode :=
  match d.val with
  | 0 => some .position
  | 1 => some .immediate
  | 2 => some .relative
  | _ => none

/-- Why a word is no instruction; running either raises InvalidOpcode (60_exceptions.md R142). -/
inductive DecodeRefusal where
  /-- The word is negative (30_encoding.md R59, decision D4; log entry 15). -/
  | negativeWord
  /-- The code `word mod 100` names no instruction (30_encoding.md R58). -/
  | illegalCode (code : Nat)
  deriving DecidableEq, Repr

/-- What the decoder answers: an instruction, or a refusal by name. -/
inductive Decoded where
  /-- The word is this instruction. -/
  | instr (i : Instr)
  /-- The word is no instruction. -/
  | refused (why : DecodeRefusal)
  deriving DecidableEq, Repr

/-- Decode a non-negative word: dispatch on the code, then take the mode digits of the parameters the instruction has
and of no other (30_encoding.md R51, R54, R57, R58). -/
def decodeNat (w : Nat) : Decoded :=
  match w % 100 with
  | 1 => .instr (.add (modeDigit w 0) (modeDigit w 1) (modeDigit w 2))
  | 2 => .instr (.mul (modeDigit w 0) (modeDigit w 1) (modeDigit w 2))
  | 3 => .instr (.inp (modeDigit w 0))
  | 4 => .instr (.out (modeDigit w 0))
  | 5 => .instr (.jt (modeDigit w 0) (modeDigit w 1))
  | 6 => .instr (.jf (modeDigit w 0) (modeDigit w 1))
  | 7 => .instr (.lt (modeDigit w 0) (modeDigit w 1) (modeDigit w 2))
  | 8 => .instr (.eq (modeDigit w 0) (modeDigit w 1) (modeDigit w 2))
  | 9 => .instr (.arb (modeDigit w 0))
  | 99 => .instr .hlt
  | c => .refused (.illegalCode c)

/-- The decoder (40_decode_and_operands.md R72, R73): a negative word first, by NEG_WORD_POLICY, then the code. -/
def decode (w : Word) : Decoded :=
  if w.toInt < 0 then
    match Config.negWordPolicy with
    | .fault => .refused .negativeWord
  else decodeNat w.toNat

/-- Every digit of the word beyond its code names a mode: what STRICT_MODE_DIGITS asks for (90_conflicts.md C3). A word of
W bits has fewer than W decimal digits. -/
def allDigitsLegal (w : Nat) : Bool := (List.range Config.W).all fun k => legalIn (modeDigit w k)

/-- The instruction code (30_encoding.md R57). -/
def Instr.code : Instr → Nat
  | .add _ _ _ => 1
  | .mul _ _ _ => 2
  | .inp _ => 3
  | .out _ => 4
  | .jt _ _ => 5
  | .jf _ _ => 6
  | .lt _ _ _ => 7
  | .eq _ _ _ => 8
  | .arb _ => 9
  | .hlt => 99

/-- The mode digits of the instruction's parameters, parameter 0 first (30_encoding.md R55). -/
def Instr.digits : Instr → List ModeDigit
  | .add m0 m1 m2 => [m0, m1, m2]
  | .mul m0 m1 m2 => [m0, m1, m2]
  | .inp m0 => [m0]
  | .out m0 => [m0]
  | .jt m0 m1 => [m0, m1]
  | .jf m0 m1 => [m0, m1]
  | .lt m0 m1 m2 => [m0, m1, m2]
  | .eq m0 m1 m2 => [m0, m1, m2]
  | .arb m0 => [m0]
  | .hlt => []

/-- The length `L` in cells: the word and one cell for each parameter (30_encoding.md R55, R56). -/
def Instr.length (i : Instr) : Nat := 1 + i.digits.length

/-- Digits as a decimal number, the first digit the least significant. -/
def digitsValue : List ModeDigit → Nat
  | [] => 0
  | d :: ds => d.val + 10 * digitsValue ds

/-- The canonical word as a number: `code + 100*m0 + 1000*m1 + 10000*m2`, 0 for a parameter the instruction lacks
(30_encoding.md R61). -/
def Instr.wordValue (i : Instr) : Nat := i.code + 100 * digitsValue i.digits

/-- The encoder: the canonical word of an instruction (30_encoding.md R61). -/
def encode (i : Instr) : Word := BitVec.ofNat Config.W i.wordValue

/-- The cells of a table instruction given as one number: cell `k` is the `k`-th W bits of `w`, of which only the low
`nbits` count; four cells, the longest instruction (30_encoding.md R50; the cell is the unit, 20_memory.md R37; log entry 14). -/
def tableCells (nbits w : Nat) : List Word :=
  let v := w % 2 ^ nbits
  (List.range 4).map fun k => BitVec.ofNat Config.W (v / 2 ^ (Config.W * k))

/-- The instruction the decoder reads from a table instruction's bits: it looks at the first cell, the instruction word,
alone (40_decode_and_operands.md R72). -/
def decodeTableWord (nbits w : Nat) : Option Instr :=
  match decode ((tableCells nbits w).headD 0) with
  | .instr i => some i
  | .refused _ => none

end Sys2Proof
end

