-- ==== Sys2Proof/Machine/State.lean ====
section
/-! DEFINITION. Machine/State.lean: everything the spec gives the machine (10_state.md R10; 20_memory.md R30, R31), as
plain data; the reasons a step can stop; the state right after reset (10_state.md R24). -/

namespace Sys2Proof.Machine

/-- The control state `st` (10_state.md R16). The codes 6 and 7 are never taken and have no constructor (U15). -/
inductive Ctrl where
  /-- Code 0: after reset; the core does nothing. -/
  | idle
  /-- Code 1: the core executes one step after another. -/
  | running
  /-- Code 2: suspended at an input instruction. -/
  | awaitInput
  /-- Code 3: suspended at an output instruction. -/
  | hasOutput
  /-- Code 4: stopped by `hlt`; terminal until reset. -/
  | halted
  /-- Code 5: stopped by an error; terminal until reset. -/
  | error
  deriving DecidableEq, Repr

/-- The error kind `err_cause` (10_state.md R19; 60_exceptions.md R141). The codes 5 (OutOfRangeJump) and 7 are never
produced and have no constructor (R148, U15). -/
inductive ErrCause where
  /-- Code 0: no error. -/
  | none
  /-- Code 1 (60_exceptions.md R142). -/
  | invalidOpcode
  /-- Code 2 (60_exceptions.md R143). -/
  | invalidAddressingMode
  /-- Code 3 (60_exceptions.md R144). -/
  | immediateWriteTarget
  /-- Code 4 (60_exceptions.md R145). -/
  | negativeAddress
  /-- Code 6 (60_exceptions.md R146). -/
  | arithmeticOverflow
  deriving DecidableEq, Repr

/-- An event the host gives the core (10_state.md R22; 47_control_fsm.md R121, R131). -/
inductive HostEvent where
  /-- `rst`: the reset event (70_reset_and_hazards.md R170). -/
  | rst
  /-- `cmd_run` (47_control_fsm.md R122). -/
  | run
  /-- `cmd_resume`, with what stands on `in_data` (47_control_fsm.md R125; R127 ignores it). -/
  | resume (inData : Word)
  /-- Write one cell of memory before running (20_memory.md R44). -/
  | poke (addr v : Word)
  /-- Make every cell read 0, then place these values at addresses 0, 1, … (70_reset_and_hazards.md R172 steps 2 and 3). -/
  | load (cells : List Word)
  deriving DecidableEq, Repr

/-- One move of the host, in the order it makes them. DESIGN CHOICE (log entry 6), safe: the model's own data. -/
inductive HostMove where
  /-- The host does nothing for one step: the core moves if it is in RUNNING. -/
  | pass
  /-- The event comes now, whatever the control state is. In RUNNING only `rst` has an effect. -/
  | now (e : HostEvent)
  /-- The synchronous caller: the event comes as soon as the core is not in RUNNING (47_control_fsm.md R134). -/
  | whenStopped (e : HostEvent)
  deriving DecidableEq, Repr

/-- Memory: (address, value) pairs, addresses strictly rising, no entry of value 0; an address that is not listed reads 0
(20_memory.md R31). The entry's value is one whole cell (20_memory.md R36, R37; log entry 2). -/
abbrev Memory := List (Nat × Word)

/-- The machine's state. -/
structure State where
  /-- `pc` (10_state.md R13, R14). -/
  pc : Word
  /-- `rb`, the relative base, signed (10_state.md R15). -/
  rb : Word
  /-- `st`, the control state (10_state.md R16). -/
  st : Ctrl
  /-- `in_dest`; meaningful only in AWAIT_INPUT (10_state.md R17). -/
  inDest : Word
  /-- `out_val`; meaningful only in HAS_OUTPUT (10_state.md R18). -/
  outVal : Word
  /-- `err_cause` (10_state.md R19). -/
  errCause : ErrCause
  /-- `err_pc`; meaningful only in ERROR (10_state.md R19). -/
  errPc : Word
  /-- The attached memory (20_memory.md R30, R31). -/
  mem : Memory
  /-- The model's own: the moves the host is still to make (47_control_fsm.md R132; log entry 6). -/
  host : List HostMove
  /-- The model's own: how many free values have been drawn (log entry 5). -/
  draws : Nat
  deriving DecidableEq, Repr

/-- Why a step stops. -/
inductive Fault where
  /-- Raised by `readCell` and `writeCell` for a negative address: memory has no such cell (20_memory.md R32). Safe; DEDUCED
  (log entry 11): the core checks every address it computes, so only a state no run reaches (a negative pc, or a negative
  in_dest in AWAIT_INPUT) comes here. -/
  | noSuchAddress
  deriving DecidableEq, Repr

/-- Why an instruction has no meaning. -/
inductive Refusal where
  /-- Raised by an arm of `exec` whose instruction has no meaning yet. Safe. No arm raises it. -/
  | notModelled (mnemonic : String)
  deriving DecidableEq, Repr

/-- The state right after reset (10_state.md R24; 70_reset_and_hazards.md R170) with a memory that reads 0 everywhere.
The values of inDest, outVal and errPc are DESIGN CHOICE, unsafe (log entry 4); host and draws are the model's own
(log entries 5 and 6). -/
def State.reset : State where
  pc := Config.pcReset
  rb := 0
  st := .idle
  inDest := 0
  outVal := 0
  errCause := .none
  errPc := 0
  mem := []
  host := []
  draws := 0

end Sys2Proof.Machine
end

