-- ==== Sys2Proof/Machine/Ops.lean ====
section
/-! DEFINITION. Machine/Ops.lean: the named operations over memory and registers, the primitives of 00_scope.md R6, and
taking an error (60_exceptions.md R152). There is no return from an error (60_exceptions.md R154). -/

namespace Sys2Proof.Machine

/-! Memory (20_memory.md R35): a total function from addresses, kept as a canonical list. -/

/-- `MemRead(addr, 1)`: an address that is not listed reads 0 (20_memory.md R31). -/
def memGet : Memory → Nat → Word
  | [], _ => 0
  | (k, v) :: r, a => if a < k then 0 else if a = k then v else memGet r a

/-- A cell in front of a list, or nothing where the cell holds what an unlisted address reads as. -/
def memCons (a : Nat) (v : Word) (r : Memory) : Memory := if v = 0 then r else (a, v) :: r

/-- `MemWrite(addr, 1, v)`: inserts or overwrites, in canonical form (20_memory.md R35). -/
def memPut : Memory → Nat → Word → Memory
  | [], a, v => memCons a v []
  | (k, x) :: r, a, v =>
    if a < k then memCons a v ((k, x) :: r)
    else if a = k then memCons a v r
    else (k, x) :: memPut r a v

/-- The canonical form from address `lo` on: addresses rising and at most ADDR_MAX, no value 0. -/
def Memory.wfFrom : Nat → Memory → Bool
  | _, [] => true
  | lo, (k, v) :: r =>
    decide (lo ≤ k) && decide (k ≤ Config.addrMax) && decide (v ≠ 0) && Memory.wfFrom (k + 1) r

/-- The canonical form of a memory. -/
def Memory.wf (m : Memory) : Bool := Memory.wfFrom 0 m

/-- Place cells at consecutive addresses from `a` on; there is no cell beyond ADDR_MAX (20_memory.md R33; log entry 9). -/
def placeCells : Nat → List Word → Memory → Memory
  | _, [], m => m
  | a, v :: vs, m => placeCells (a + 1) vs (if a ≤ Config.addrMax then memPut m a v else m)

/-! Named updates of the state. -/

/-- `pc <- v`. -/
def State.setPc (s : State) (v : Word) : State := { s with pc := v }

/-- `rb <- v`. -/
def State.setRb (s : State) (v : Word) : State := { s with rb := v }

/-- `st <- c`. -/
def State.setSt (s : State) (c : Ctrl) : State := { s with st := c }

/-- `in_dest <- v`. -/
def State.setInDest (s : State) (v : Word) : State := { s with inDest := v }

/-- `out_val <- v`. -/
def State.setOutVal (s : State) (v : Word) : State := { s with outVal := v }

/-- `err_pc <- v`. -/
def State.setErrPc (s : State) (v : Word) : State := { s with errPc := v }

/-- The whole memory replaced. -/
def State.setMem (s : State) (m : Memory) : State := { s with mem := m }

/-- The host's remaining moves replaced. -/
def State.setHost (s : State) (h : List HostMove) : State := { s with host := h }

/-- TAKING AN ERROR (60_exceptions.md R152; log entry 10): the cause and the failing instruction's address are
recorded, the control state becomes ERROR; pc, rb, memory, in_dest and out_val keep their values. -/
def State.enterError (s : State) (c : ErrCause) : State := { s with errCause := c, errPc := s.pc, st := .error }

/-- FREE VALUE: in_dest has no value outside AWAIT_INPUT (10_state.md R17; log entry 5). -/
def State.forgetInDest (s : State) : State :=
  { s with inDest := Config.freeLatch s.draws, draws := s.draws + 1 }

/-- FREE VALUE: out_val has no value outside HAS_OUTPUT (10_state.md R18; log entry 5). -/
def State.forgetOutVal (s : State) : State :=
  { s with outVal := Config.freeLatch s.draws, draws := s.draws + 1 }

/-- FREE VALUE: err_pc has no value outside ERROR (10_state.md R19; log entry 5). -/
def State.forgetErrPc (s : State) : State :=
  { s with errPc := Config.freeLatch s.draws, draws := s.draws + 1 }

/-! Computations inside one step. -/

/-- What a computation inside a step answers: a value; a raised error, which abandons the instruction (00_scope.md R6,
`raise`); or the model's own stop. -/
inductive Res (α : Type) where
  /-- A value. -/
  | ok (a : α)
  /-- An error of the spec is raised. -/
  | err (c : ErrCause)
  /-- The machine stops with a fault of the model. -/
  | stop (f : Fault)
  deriving DecidableEq, Repr

/-- One computation after another; the first that gives no value ends the chain. -/
def Res.bind {α β : Type} (x : Res α) (f : α → Res β) : Res β :=
  match x with
  | .ok a => f a
  | .err c => .err c
  | .stop g => .stop g

/-- The end of a step (00_scope.md R7): commit everything, or take the error and commit nothing. -/
def finish (s : State) (r : Res State) : Host.Outcome State Fault Refusal :=
  match r with
  | .ok t => .next t
  | .err c => .next (s.enterError c)
  | .stop f => .fault f

/-- What an exact result outside Int_W does: OVF_POLICY (00_scope.md R5; 60_exceptions.md R146). -/
def outOfRange {α : Type} : Res α :=
  match Config.ovfPolicy with
  | .fault => .err .arithmeticOverflow

/-- `fit(v)` (00_scope.md R6): the value if it is in Int_W, else ArithmeticOverflow by OVF_POLICY
(60_exceptions.md R146). -/
def fit (v : Int) : Res Word :=
  if Config.minW ≤ v ∧ v ≤ Config.maxW then .ok (BitVec.ofInt Config.W v) else outOfRange

/-- `fit(npc + 1)`: the running pointer moves past one cell (40_decode_and_operands.md R71, R80). -/
def advance (npc : Word) : Res Word := fit (npc.toInt + 1)

/-- Read the cell at an address held in a word. -/
def readCell (s : State) (addr : Word) : Res Word :=
  if addr.toInt < 0 then .stop .noSuchAddress else .ok (memGet s.mem addr.toNat)

/-- Write the cell at an address held in a word. -/
def writeCell (s : State) (addr v : Word) : Res State :=
  if addr.toInt < 0 then .stop .noSuchAddress else .ok (s.setMem (memPut s.mem addr.toNat v))

end Sys2Proof.Machine
end

