-- ==== Sys2Proof/Machine/Operands.lean ====
section
/-! DEFINITION. Machine/Operands.lean: the operand forms (40_decode_and_operands.md R75, R76) and the jump target
(43_jumps.md R102). `npc` is the running pointer of a step (10_state.md R13): it stands on the parameter's cell. -/

namespace Sys2Proof.Machine

/-- The effective address of a Position or Relative parameter: not negative, and `rb + raw` inside Int_W
(40_decode_and_operands.md R75, R76, R78, R79). -/
def checkAddress (ea : Word) : Res Word := if ea.toInt < 0 then .err .negativeAddress else .ok ea

/-- `rb + raw`, exact (40_decode_and_operands.md R79). -/
def relativeAddress (s : State) (raw : Word) : Res Word := (fit (s.rb.toInt + raw.toInt)).bind checkAddress

/-- The parameter cell, and the running pointer past it (40_decode_and_operands.md R75, R76). -/
def readParam (s : State) (npc : Word) : Res (Word × Word) :=
  (readCell s npc).bind fun raw => (advance npc).bind fun next => .ok (raw, next)

/-- `ReadIn(k)` for the mode digit `d` of parameter k (40_decode_and_operands.md R75): the value, and the running pointer
past the parameter cell. -/
def readIn (s : State) (d : ModeDigit) (npc : Word) : Res (Word × Word) :=
  match modeOf d with
  | none => .err .invalidAddressingMode
  | some .immediate => readParam s npc
  | some .position =>
    (readParam s npc).bind fun p =>
      (checkAddress p.1).bind fun ea => (readCell s ea).bind fun v => .ok (v, p.2)
  | some .relative =>
    (readParam s npc).bind fun p =>
      (relativeAddress s p.1).bind fun ea => (readCell s ea).bind fun v => .ok (v, p.2)

/-- `ResolveOut(k)` for the mode digit `d` of parameter k (40_decode_and_operands.md R76): the target address, and the
running pointer past the parameter cell. -/
def resolveOut (s : State) (d : ModeDigit) (npc : Word) : Res (Word × Word) :=
  match modeOf d with
  | none => .err .invalidAddressingMode
  | some .immediate => .err .immediateWriteTarget
  | some .position => (readParam s npc).bind fun p => (checkAddress p.1).bind fun ea => .ok (ea, p.2)
  | some .relative => (readParam s npc).bind fun p => (relativeAddress s p.1).bind fun ea => .ok (ea, p.2)

/-- A taken jump: the target must not be negative (43_jumps.md R102); JUMP_BOUND says that no extent
is checked (R103; log entry 15). -/
def jumpTo (s : State) (target : Word) : Res State :=
  match Config.jumpBound with
  | .none => (checkAddress target).bind fun b => .ok (s.setPc b)

/-- A jump that is not taken: pc past the instruction; JUMP_NEG_CHECK says whether its target is checked all the same
(43_jumps.md R102; D7). -/
def fallThrough (s : State) (target next : Word) : Res State :=
  match Config.jumpNegCheck with
  | .whenTaken => .ok (s.setPc next)
  | .always => (checkAddress target).bind fun _ => .ok (s.setPc next)

/-- Format F3IIO (30_encoding.md R55): two inputs, then the output target, then the operation, then the one write
(20_memory.md R41) and pc past the instruction. -/
def threeParam (op : Word → Word → Res Word) (m0 m1 m2 : ModeDigit) (s : State) : Res State :=
  (advance s.pc).bind fun n0 =>
  (readIn s m0 n0).bind fun a =>
  (readIn s m1 a.2).bind fun b =>
  (resolveOut s m2 b.2).bind fun t =>
  (op a.1 b.1).bind fun r =>
  (writeCell s t.1 r).bind fun s' => .ok (s'.setPc t.2)

/-- Format F2II (30_encoding.md R55), the jumps: both parameters are resolved whether or not the jump is taken
(40_decode_and_operands.md R77). -/
def condJump (taken : Word → Bool) (m0 m1 : ModeDigit) (s : State) : Res State :=
  (advance s.pc).bind fun n0 =>
  (readIn s m0 n0).bind fun a =>
  (readIn s m1 a.2).bind fun b =>
  if taken a.1 then jumpTo s b.1 else fallThrough s b.1 b.2

/-- Format F1I (30_encoding.md R55): one input, then the instruction's own effect on its value, then pc past the
instruction. -/
def oneIn (effect : Word → Res State) (m0 : ModeDigit) (s : State) : Res State :=
  (advance s.pc).bind fun n0 =>
  (readIn s m0 n0).bind fun a =>
  (effect a.1).bind fun s' => .ok (s'.setPc a.2)

/-- Format F1O (30_encoding.md R55): one output target, then the instruction's own effect on it, then pc past the
instruction. -/
def oneOut (effect : Word → Res State) (m0 : ModeDigit) (s : State) : Res State :=
  (advance s.pc).bind fun n0 =>
  (resolveOut s m0 n0).bind fun t =>
  (effect t.1).bind fun s' => .ok (s'.setPc t.2)

end Sys2Proof.Machine
end

