-- ==== Sys2Proof/Machine/Arithmetic.lean ====
section
/-! DEFINITION. Machine/Arithmetic.lean: `add` and `mul` (41_arithmetic.md). -/

namespace Sys2Proof.Machine

/-- `add` (41_arithmetic.md R90): `fit(a + b)` to the target. -/
def execAdd (m0 m1 m2 : ModeDigit) (s : State) : Host.Outcome State Fault Refusal :=
  finish s (threeParam (fun a b => fit (a.toInt + b.toInt)) m0 m1 m2 s)

/-- `mul` (41_arithmetic.md R91): `fit(a * b)` to the target. -/
def execMul (m0 m1 m2 : ModeDigit) (s : State) : Host.Outcome State Fault Refusal :=
  finish s (threeParam (fun a b => fit (a.toInt * b.toInt)) m0 m1 m2 s)

end Sys2Proof.Machine
end

