-- ==== Sys2Proof/Machine/Flags.lean ====
section
/-! DEFINITION. Machine/Flags.lean: the hardware has no flags (10_state.md R12). What stands in their place is here: the
1 or 0 a compare writes to memory, and the test a conditional jump makes of a value (44_compare.md R107). -/

namespace Sys2Proof.Machine

/-- Exactly the integer 1 or the integer 0 (44_compare.md R105, R106). -/
def truthWord (b : Bool) : Word := if b then 1 else 0

/-- `a < b`, signed and strict (44_compare.md R105). -/
def lessThan (a b : Word) : Bool := decide (a.toInt < b.toInt)

/-- `a = b`, of the whole values (44_compare.md R106). -/
def equals (a b : Word) : Bool := decide (a = b)

/-- `jt`'s condition: any non-zero value (43_jumps.md R100). -/
def condTrue (a : Word) : Bool := decide (a ≠ 0)

/-- `jf`'s condition: the value 0 (43_jumps.md R101). -/
def condFalse (a : Word) : Bool := decide (a = 0)

end Sys2Proof.Machine
end

