-- ==== Sys2Proof/Machine/Compare.lean ====
section
/-! DEFINITION. Machine/Compare.lean: `lt` and `eq` (44_compare.md). The comparison itself raises nothing. -/

namespace Sys2Proof.Machine

/-- `lt` (44_compare.md R105). -/
def execLt (m0 m1 m2 : ModeDigit) (s : State) : Host.Outcome State Fault Refusal :=
  finish s (threeParam (fun a b => .ok (truthWord (lessThan a b))) m0 m1 m2 s)

/-- `eq` (44_compare.md R106). -/
def execEq (m0 m1 m2 : ModeDigit) (s : State) : Host.Outcome State Fault Refusal :=
  finish s (threeParam (fun a b => .ok (truthWord (equals a b))) m0 m1 m2 s)

end Sys2Proof.Machine
end

