-- ==== Sys2Proof/Machine/Halt.lean ====
section
/-! DEFINITION. Machine/Halt.lean: `hlt` (46_halt.md). -/

namespace Sys2Proof.Machine

/-- `hlt` (46_halt.md R113; log entry 13): pc past the word, HALTED; nothing else is written. -/
def execHlt (s : State) : Host.Outcome State Fault Refusal :=
  finish s ((advance s.pc).bind fun n => .ok ((s.setSt .halted).setPc n))

end Sys2Proof.Machine
end

