-- ==== Sys2Proof/Machine/Io.lean ====
section
/-! DEFINITION. Machine/Io.lean: the two suspend points, `in` and `out` (42_io.md). What the host then does is
Machine/HostPort.lean. -/

namespace Sys2Proof.Machine

/-- `in` (42_io.md R95): the destination is captured and the core suspends; no memory is written in this step. -/
def execIn (m0 : ModeDigit) (s : State) : Host.Outcome State Fault Refusal :=
  finish s (oneOut (fun t => .ok ((s.setInDest t).setSt .awaitInput)) m0 s)

/-- `out` (42_io.md R96): the value is captured and the core suspends. -/
def execOut (m0 : ModeDigit) (s : State) : Host.Outcome State Fault Refusal :=
  finish s (oneIn (fun a => .ok ((s.setOutVal a).setSt .hasOutput)) m0 s)

end Sys2Proof.Machine
end

