-- ==== Sys2Proof/Machine/Jumps.lean ====
section
/-! DEFINITION. Machine/Jumps.lean: `jt` and `jf` (43_jumps.md). -/

namespace Sys2Proof.Machine

/-- `jt` (43_jumps.md R100): taken when `a` is not 0. -/
def execJt (m0 m1 : ModeDigit) (s : State) : Host.Outcome State Fault Refusal :=
  finish s (condJump condTrue m0 m1 s)

/-- `jf` (43_jumps.md R101): taken when `a` is 0. -/
def execJf (m0 m1 : ModeDigit) (s : State) : Host.Outcome State Fault Refusal :=
  finish s (condJump condFalse m0 m1 s)

end Sys2Proof.Machine
end

