-- ==== Sys2Proof/Machine/RelativeBase.lean ====
section
/-! DEFINITION. Machine/RelativeBase.lean: `arb` (45_relative_base.md). -/

namespace Sys2Proof.Machine

/-- `arb` (45_relative_base.md R110): `rb <- fit(rb + a)`; a Relative operand is read with the old rb. -/
def execArb (m0 : ModeDigit) (s : State) : Host.Outcome State Fault Refusal :=
  finish s (oneIn (fun a => (fit (s.rb.toInt + a.toInt)).bind fun v => .ok (s.setRb v)) m0 s)

end Sys2Proof.Machine
end

