-- ==== Sys2Proof/Machine/HostPort.lean ====
section
/-! DEFINITION. Machine/HostPort.lean: what the host does to the machine (47_control_fsm.md R121, R125, R127, R131;
70_reset_and_hazards.md R170) and what it may read (10_state.md R22, R23; 20_memory.md R44). An event that does not fit the
control state changes nothing (47_control_fsm.md R133). -/

namespace Sys2Proof.Machine

/-- `rst`, in any state, between steps (70_reset_and_hazards.md R170; log entry 17): pc, rb, err_cause and st at
their reset values; the three latches have no value (10_state.md R24; free values, log entry 5); memory is not written (R171). -/
def onReset (s : State) : State :=
  { s.forgetInDest.forgetOutVal.forgetErrPc with
    pc := Config.pcReset, rb := 0, st := .idle, errCause := .none }

/-- `cmd_run`, in IDLE (47_control_fsm.md R121). -/
def onRun (s : State) : State := if s.st = .idle then s.setSt .running else s

/-- `cmd_resume` from AWAIT_INPUT (47_control_fsm.md R125): the supplied value goes to the captured destination; in_dest
is no longer valid. -/
def resumeInput (s : State) (v : Word) : Res State :=
  (writeCell s s.inDest v).bind fun s' => .ok (s'.forgetInDest.setSt .running)

/-- `cmd_resume` from HAS_OUTPUT (47_control_fsm.md R127): out_val is no longer valid. -/
def resumeOutput (s : State) : State := s.forgetOutVal.setSt .running

/-- `cmd_resume` in any state (47_control_fsm.md R121, R133). -/
def onResume (s : State) (v : Word) : Res State :=
  match s.st with
  | .awaitInput => resumeInput s v
  | .hasOutput => .ok (resumeOutput s)
  | .idle => .ok s
  | .running => .ok s
  | .halted => .ok s
  | .error => .ok s

/-- A host write of one cell, in IDLE, at an address that exists (20_memory.md R44; log entry 9). -/
def onPoke (s : State) (addr v : Word) : State :=
  if s.st = .idle ∧ 0 ≤ addr.toInt then s.setMem (memPut s.mem addr.toNat v) else s

/-- A program loaded into a fresh memory, in IDLE (70_reset_and_hazards.md R172 steps 2 and 3; log entry 9). -/
def onLoad (s : State) (cells : List Word) : State :=
  if s.st = .idle then s.setMem (placeCells 0 cells []) else s

/-- The host's events (47_control_fsm.md R121). -/
def onEvent (e : HostEvent) (s : State) : Host.Outcome State Fault Refusal :=
  match e with
  | .rst => .next (onReset s)
  | .run => .next (onRun s)
  | .resume v => finish s (onResume s v)
  | .poke a v => .next (onPoke s a v)
  | .load cells => .next (onLoad s cells)

/-- The outputs the host can see (10_state.md R22, R23): `none` where a signal has no value for it. -/
structure HostView where
  /-- `st`, always. -/
  st : Ctrl
  /-- `in_dest`, in AWAIT_INPUT. -/
  inDest : Option Word
  /-- `out_val`, in HAS_OUTPUT. -/
  outVal : Option Word
  /-- `err_cause`, when not RUNNING. DESIGN CHOICE (log entry 20): 47_control_fsm.md R131 lists it in ERROR only. -/
  errCause : Option ErrCause
  /-- `err_pc`, in ERROR. -/
  errPc : Option Word
  deriving DecidableEq, Repr

/-- What the host sees of a state (10_state.md R17, R18, R19, R23; 47_control_fsm.md R131). That it sees err_cause in every
state but RUNNING, and not in ERROR alone, is the model's choice (log entry 20). -/
def hostView (s : State) : HostView where
  st := s.st
  inDest := if s.st = .awaitInput then some s.inDest else none
  outVal := if s.st = .hasOutput then some s.outVal else none
  errCause := if s.st = .running then none else some s.errCause
  errPc := if s.st = .error then some s.errPc else none

/-- A host read of one cell: in IDLE and HALTED, at an address that exists (20_memory.md R44; log
entry 18). -/
def hostPeek (s : State) (addr : Word) : Option Word :=
  if (s.st = .idle ∨ s.st = .halted) ∧ 0 ≤ addr.toInt then some (memGet s.mem addr.toNat) else none

/-- The code of a control state on the `st` output (10_state.md R16). -/
def ctrlCode : Ctrl → BitVec 3
  | .idle => 0
  | .running => 1
  | .awaitInput => 2
  | .hasOutput => 3
  | .halted => 4
  | .error => 5

/-- The code of an error kind on the `err_cause` output (60_exceptions.md R141). -/
def causeCode : ErrCause → BitVec 3
  | .none => 0
  | .invalidOpcode => 1
  | .invalidAddressingMode => 2
  | .immediateWriteTarget => 3
  | .negativeAddress => 4
  | .arithmeticOverflow => 6

end Sys2Proof.Machine
end

