-- ==== Sys2Proof/Machine/RunLoop.lean ====
section
/-! DEFINITION. Machine/RunLoop.lean: the control state machine (47_control_fsm.md): fetch, the run loop, and who moves
next; and how an instruction is placed for the next step to run. -/

namespace Sys2Proof.Machine

/-- STRICT_MODE_DIGITS: whether digits that no parameter uses are checked as well (30_encoding.md R54; D16). -/
def checkDigits (w : Word) (i : Instr) : Res Instr :=
  if Config.strictModeDigits && !allDigitsLegal w.toNat then .err .invalidAddressingMode else .ok i

/-- Fetch and decode (40_decode_and_operands.md R71, R72, R73), in the order of 60_exceptions.md R151: the word, the
running pointer past it, then the code. -/
def fetchDecode (s : State) : Res Instr :=
  (readCell s s.pc).bind fun w =>
  (advance s.pc).bind fun _ =>
  match decode w with
  | .instr i => checkDigits w i
  | .refused _ => .err .invalidOpcode

/-- One step of the core in RUNNING (40_decode_and_operands.md R70). -/
def runStep (s : State) : Host.Outcome State Fault Refusal :=
  match fetchDecode s with
  | .ok i => exec i s
  | .err c => .next (s.enterError c)
  | .stop f => .fault f

/-- The core's turn: a step in RUNNING (47_control_fsm.md R122); in every other state it does nothing and changes nothing
(47_control_fsm.md R124, R129, R137; log entry 7). -/
def coreTurn (s : State) : Host.Outcome State Fault Refusal :=
  if s.st = .running then runStep s else .next s

/-- One transition, with the host's event, if one comes, as its parameter (00_scope.md R9; 47_control_fsm.md R121). While
the core is RUNNING only the core moves (47_control_fsm.md R134): an event other than `rst` is ignored (R133) and takes no
turn from it. -/
def transitionOn (event : Option HostEvent) (s : State) : Host.Outcome State Fault Refusal :=
  match event with
  | none => coreTurn s
  | some e => if s.st = .running ∧ e ≠ .rst then coreTurn s else onEvent e s

/-- The host's event that comes now, and the moves that are left (log entry 6). -/
def nextMove (s : State) : Option HostEvent × List HostMove :=
  match s.host with
  | [] => (none, [])
  | .pass :: r => (none, r)
  | .now e :: r => (some e, r)
  | .whenStopped e :: r => if s.st = .running then (none, s.host) else (some e, r)

/-- One transition of the machine with its host (47_control_fsm.md R134; log entry 6). -/
def transition (s : State) : Host.Outcome State Fault Refusal := transitionOn (nextMove s).1 (s.setHost (nextMove s).2)

/-- The state with cells placed at pc, in RUNNING, the host making no move: the next step runs what stands there
(log entry 8). -/
def placeAtPc (s : State) (cells : List Word) : State :=
  ((s.setMem (placeCells s.pc.toNat cells s.mem)).setSt .running).setHost []

end Sys2Proof.Machine
end

