-- ==== Sys2Proof/Machine/Step.lean ====
section
/-! DEFINITION. Machine/Step.lean: the machine's one step. -/

namespace Sys2Proof.Machine

/-- One step of the machine. -/
def step (s : State) : Host.Outcome State Fault Refusal := transition s

/-- `s` with a table instruction stored where the next step fetches, in RUNNING (log entry 8). -/
def State.withFetchWord (s : State) (nbits w : Nat) : State := placeAtPc s (tableCells nbits w)

end Sys2Proof.Machine
end

