-- ==== Sys2Proof/Safety.lean ====
section
/-! DEFINITION. Safety.lean: the invariant of every run, and the words the claims are stated in: what a parameter
designates, when it can be resolved, and which errors an instruction has, in the order of 60_exceptions.md R151. They are
written from the rules as values of the state, with no running pointer, and no meaning calls them. -/

namespace Sys2Proof.Machine

/-- What holds in every state of a run. -/
structure State.Inv (s : State) : Prop where
  /-- pc is in 0..ADDR_MAX (10_state.md R14). -/
  pcAddress : 0 ≤ s.pc.toInt
  /-- A core in AWAIT_INPUT holds a valid destination (42_io.md R95). -/
  destAddress : s.st = .awaitInput → 0 ≤ s.inDest.toInt
  /-- err_cause is 0 in every state other than ERROR, and only there (10_state.md R19). -/
  causeIffError : s.errCause = .none ↔ s.st ≠ .error
  /-- In ERROR err_pc is the address of the failing instruction, which pc still holds (10_state.md R19). -/
  errPcIsPc : s.st = .error → s.errPc = s.pc
  /-- Memory has its canonical form. -/
  memWf : s.mem.wf = true

/-- The cell of parameter `k` of the instruction at pc (20_memory.md R39, `P(k)`). -/
def State.param (s : State) (k : Nat) : Word := memGet s.mem (s.pc.toNat + 1 + k)

/-- The address pc + n. -/
def State.pcPlus (s : State) (n : Nat) : Word := s.pc + BitVec.ofNat Config.W n

/-- The instruction's n cells and the address after them are addresses (40_decode_and_operands.md R80). -/
abbrev State.cellsFit (s : State) (n : Nat) : Prop := 0 ≤ s.pc.toInt ∧ s.pc.toInt + n ≤ Config.maxW

/-- The effective address of a Position (0) or Relative (2) parameter with this raw value, exact
(40_decode_and_operands.md R75, R79). -/
def State.ea (s : State) (d : ModeDigit) (raw : Word) : Int :=
  if d.val = 2 then s.rb.toInt + raw.toInt else raw.toInt

/-- A Position or Relative parameter whose effective address exists (40_decode_and_operands.md R76). -/
abbrev State.writable (s : State) (d : ModeDigit) (raw : Word) : Prop :=
  (d.val = 0 ∨ d.val = 2) ∧ 0 ≤ s.ea d raw ∧ s.ea d raw ≤ Config.maxW

/-- An input parameter that can be resolved (40_decode_and_operands.md R75). -/
abbrev State.readable (s : State) (d : ModeDigit) (raw : Word) : Prop := d.val = 1 ∨ s.writable d raw

/-- The value of a resolvable input parameter (40_decode_and_operands.md R75). -/
def State.inValue (s : State) (d : ModeDigit) (raw : Word) : Word :=
  if d.val = 1 then raw else memGet s.mem (s.ea d raw).toNat

/-- A value inside Int_W (00_scope.md R6). -/
abbrev inRange (v : Int) : Prop := Config.minW ≤ v ∧ v ≤ Config.maxW

/-- An error that is raised when the condition holds. -/
def errorIf (p : Prop) [Decidable p] (c : ErrCause) : List ErrCause := if p then [c] else []

/-- The errors of reaching and addressing parameter `k` (60_exceptions.md R151, 3c, 3d, 3e). -/
def State.addressErrors (s : State) (k : Nat) (d : ModeDigit) : List ErrCause :=
  errorIf (s.pc.toInt + 1 + k = Config.maxW) .arithmeticOverflow ++
  errorIf (d.val = 2 ∧ ¬(Config.minW ≤ s.ea d (s.param k) ∧ s.ea d (s.param k) ≤ Config.maxW)) .arithmeticOverflow ++
  errorIf (d.val ≠ 1 ∧ s.ea d (s.param k) < 0) .negativeAddress

/-- The errors of input parameter `k` with mode digit `d`, in order (60_exceptions.md R151, 3). -/
def State.inErrors (s : State) (k : Nat) (d : ModeDigit) : List ErrCause :=
  errorIf (3 ≤ d.val) .invalidAddressingMode ++ s.addressErrors k d

/-- The errors of output parameter `k` with mode digit `d`, in order (60_exceptions.md R151, 3). -/
def State.outErrors (s : State) (k : Nat) (d : ModeDigit) : List ErrCause :=
  errorIf (3 ≤ d.val) .invalidAddressingMode ++ errorIf (d.val = 1) .immediateWriteTarget ++ s.addressErrors k d

/-- The error of a result outside Int_W (60_exceptions.md R151, 5). -/
def resultErrors (v : Int) : List ErrCause :=
  errorIf (¬(Config.minW ≤ v ∧ v ≤ Config.maxW)) .arithmeticOverflow

/-- The error of a taken jump with a negative target (60_exceptions.md R151, 4). -/
def targetErrors (taken : Prop) [Decidable taken] (b : Word) : List ErrCause :=
  errorIf (taken ∧ b.toInt < 0) .negativeAddress

/-- Every error of the instruction at pc, in the order of 60_exceptions.md R151; the first is the one reported. -/
def errorsAt (i : Instr) (s : State) : List ErrCause :=
  errorIf (s.pc.toInt = Config.maxW) .arithmeticOverflow ++
  match i with
  | .add m0 m1 m2 =>
    s.inErrors 0 m0 ++ s.inErrors 1 m1 ++ s.outErrors 2 m2 ++
      resultErrors ((s.inValue m0 (s.param 0)).toInt + (s.inValue m1 (s.param 1)).toInt)
  | .mul m0 m1 m2 =>
    s.inErrors 0 m0 ++ s.inErrors 1 m1 ++ s.outErrors 2 m2 ++
      resultErrors ((s.inValue m0 (s.param 0)).toInt * (s.inValue m1 (s.param 1)).toInt)
  | .inp m0 => s.outErrors 0 m0
  | .out m0 => s.inErrors 0 m0
  | .jt m0 m1 =>
    s.inErrors 0 m0 ++ s.inErrors 1 m1 ++ targetErrors (s.inValue m0 (s.param 0) ≠ 0) (s.inValue m1 (s.param 1))
  | .jf m0 m1 =>
    s.inErrors 0 m0 ++ s.inErrors 1 m1 ++ targetErrors (s.inValue m0 (s.param 0) = 0) (s.inValue m1 (s.param 1))
  | .lt m0 m1 m2 => s.inErrors 0 m0 ++ s.inErrors 1 m1 ++ s.outErrors 2 m2
  | .eq m0 m1 m2 => s.inErrors 0 m0 ++ s.inErrors 1 m1 ++ s.outErrors 2 m2
  | .arb m0 => s.inErrors 0 m0 ++ resultErrors (s.rb.toInt + (s.inValue m0 (s.param 0)).toInt)
  | .hlt => []

/-- Whether the instruction at pc, its parameters resolved, is a jump that is taken (43_jumps.md R100, R101). -/
abbrev jumpTaken (i : Instr) (s : State) : Prop :=
  match i with
  | .jt m0 _ => s.inValue m0 (s.param 0) ≠ 0
  | .jf m0 _ => s.inValue m0 (s.param 0) = 0
  | _ => False

/-- The host's event that has a move at this step, if one has: in RUNNING only `rst` (47_control_fsm.md R131, R133, R134). -/
def State.hostEvent (s : State) : Option HostEvent :=
  match s.host with
  | .now e :: _ => if s.st = .running ∧ e ≠ .rst then none else some e
  | .whenStopped e :: _ => if s.st = .running then none else some e
  | _ => none

/-- The state the core's turn starts from: a `pass` of the host, or an event that is ignored, is used up; a caller that waits
stays (the model's own field, log entry 6). -/
def State.onItsTurn (s : State) : State :=
  match s.host with
  | .pass :: r => s.setHost r
  | .now _ :: r => s.setHost r
  | _ => s

/-- The state with the host's first move used up and nothing else changed (the model's own field, log entry 6). -/
def State.moveUsed (s : State) : State := s.setHost s.host.tail

/-- The word at pc (40_decode_and_operands.md R71). -/
def State.word (s : State) : Word := memGet s.mem s.pc.toNat

/-- Two outcomes that agree, their next states after `f` has overwritten what may differ. -/
def sameUpTo (f : State → State) : Host.Outcome State Fault Refusal → Host.Outcome State Fault Refusal → Prop
  | .next t, .next u => f t = f u
  | .fault a, .fault b => a = b
  | .refused a, .refused b => a = b
  | _, _ => False

end Sys2Proof.Machine
end

