-- ==== Sys2Proof/Certificates/Slice0/Obligations.lean ====
section
/-! DEFINITION. Certificates/Slice0/Obligations.lean: the statements for the provers, file by file of spec/. The words they
use (param, ea, readable, writable, inValue, errorsAt, hostEvent, …) are in Safety.lean and are written from the rules. -/

open Sys2Proof Sys2Proof.Machine

/-! ## Encoding (30_encoding.md) -/

/-- 30_encoding.md R51, R57, R61: the decoder reads back every instruction from its canonical word, with every mode digit
0 to 9, legal or not. -/
def Obligations.DecodeInvertsEncode : Prop := ∀ i : Instr, decode (encode i) = .instr i

/-- 30_encoding.md R57, R58, R59: exactly the non-negative words with one of the ten codes are instructions, and a negative
word is refused as negative. -/
def Obligations.DecodeAcceptsExactlyTheTenCodes : Prop := ∀ w : Word,
  ((∃ i, decode w = .instr i) ↔ 0 ≤ w.toInt ∧ w.toNat % 100 ∈ [1, 2, 3, 4, 5, 6, 7, 8, 9, 99]) ∧
  (decode w = .refused .negativeWord ↔ w.toInt < 0)

/-- 30_encoding.md R51, R53: the code is the word modulo 100, the mode digit of parameter k is digit k + 2, a missing digit
is 0, and the digits from 5 up are never examined. -/
def Obligations.DecodedFieldsAreTheDecimalDigits : Prop :=
  (∀ (w : Word) (i : Instr), decode w = .instr i →
    i.code = w.toNat % 100 ∧
    ∀ (k : Nat) (d : ModeDigit), i.digits[k]? = some d →
      d.val = w.toNat / 10 ^ (k + 2) % 10 ∧ (w.toNat < 10 ^ (k + 2) → d.val = 0)) ∧
  (∀ w w' : Word, 0 ≤ w.toInt → 0 ≤ w'.toInt → w.toNat % 100000 = w'.toNat % 100000 →
    ∀ i, decode w = .instr i → decode w' = .instr i)

/-- 30_encoding.md R54: two words that agree on the code and on the mode digits of the parameters the instruction has
decode alike, whatever their other digits. -/
def Obligations.UnexaminedDigitsHaveNoEffect : Prop := ∀ (w w' : Word) (i : Instr),
  decode w = .instr i → 0 ≤ w'.toInt →
  w'.toNat % 10 ^ (2 + i.digits.length) = w.toNat % 10 ^ (2 + i.digits.length) →
  decode w' = .instr i

/-- 30_encoding.md R52: 0 is Position, 1 Immediate, 2 Relative, and the digits 3 to 9 map to no mode. -/
def Obligations.ModeDigitsNameTheModes : Prop :=
  modeOf 0 = some .position ∧ modeOf 1 = some .immediate ∧ modeOf 2 = some .relative ∧
  ∀ d : ModeDigit, 3 ≤ d.val → modeOf d = none

/-- 30_encoding.md R56: the length is decided by the code alone, and after an instruction that does not jump and raises no
error pc has advanced by it. -/
def Obligations.PcAdvancesByTheLengthOfTheCode : Prop :=
  (∀ i : Instr, i.length =
    if i.code ∈ [1, 2, 7, 8] then 4 else if i.code ∈ [5, 6] then 3 else if i.code ∈ [3, 4, 9] then 2 else 1) ∧
  (∀ (i : Instr) (s t : State), 0 ≤ s.pc.toInt → exec i s = .next t → s.st ≠ .error → t.st ≠ .error →
    ¬ jumpTaken i s → t.pc.toInt = s.pc.toInt + i.length)

/-- 95_test_vectors.md V1, V7 to V9, V59, V63; 40_decode_and_operands.md R84; 30_encoding.md R63: words written out from
the encoding. -/
def Obligations.SampleWordsDecodeAsTheSpecSays : Prop :=
  decode 22101 = .instr (.add 1 2 2) ∧ decode 1002 = .instr (.mul 0 1 0) ∧ decode 100001 = .instr (.add 0 0 0) ∧
  decode 1003 = .instr (.inp 0) ∧ decode 203 = .instr (.inp 2) ∧ decode 104 = .instr (.out 1) ∧
  decode 1105 = .instr (.jt 1 1) ∧ decode 2205 = .instr (.jt 2 2) ∧ decode 1106 = .instr (.jf 1 1) ∧
  decode 1007 = .instr (.lt 0 1 0) ∧ decode 1108 = .instr (.eq 1 1 0) ∧ decode 209 = .instr (.arb 2) ∧
  decode 1234599 = .instr .hlt ∧ decode 30099 = .instr .hlt ∧
  decode 77 = .refused (.illegalCode 77) ∧ decode 0 = .refused (.illegalCode 0) ∧
  decode (-1) = .refused .negativeWord ∧ decode (-99) = .refused .negativeWord

/-! ## Memory (20_memory.md) -/

/-- 20_memory.md R35: a write succeeds at every address, a read of that cell then gives the value written, every other cell
is unchanged, and a read succeeds at every address. -/
def Obligations.ReadAfterWriteGivesTheValueWritten : Prop := ∀ (s : State) (a v : Word),
  s.mem.wf = true → 0 ≤ a.toInt →
  ∃ t, writeCell s a v = .ok t ∧ readCell t a = .ok v ∧
    (∀ b : Word, 0 ≤ b.toInt → b ≠ a → readCell t b = readCell s b) ∧
    (∀ b : Word, 0 ≤ b.toInt → ∃ x, readCell s b = .ok x)

/-- 20_memory.md R31: whatever has been written elsewhere, a cell that was never written reads as 0. -/
def Obligations.NeverWrittenCellReadsZero : Prop := ∀ (writes : List (Nat × Word)) (a : Nat),
  (∀ p ∈ writes, p.1 ≤ Config.addrMax ∧ p.1 ≠ a) →
  memGet (writes.foldl (fun m p => memPut m p.1 p.2) State.reset.mem) a = 0

/-- 20_memory.md R31, R36: a memory is what its cells read as: two memories in canonical form that read alike at every
address are one list. (That memory is a canonical list is the model's own form, log entry 2.) -/
def Obligations.MemoriesThatReadAlikeAreEqual : Prop := ∀ m m' : Memory,
  m.wf = true → m'.wf = true → (∀ a ≤ Config.addrMax, memGet m a = memGet m' a) → m = m'

/-- 70_reset_and_hazards.md R172, 20_memory.md R44: a program loaded in IDLE stands at addresses 0 to N-1 and every other
cell reads 0; a poke in IDLE writes its one cell. (That a load also clears is the model's `load` event, log entry 9.) -/
def Obligations.LoadedProgramStandsFromAddressZero : Prop :=
  (∀ (s : State) (cells : List Word), s.st = .idle → cells.length ≤ Config.addrMax + 1 →
    ∃ t, onEvent (.load cells) s = .next t ∧ t = s.setMem t.mem ∧ t.mem.wf = true ∧
      ∀ a : Nat, memGet t.mem a = cells.getD a 0) ∧
  (∀ (s : State) (a v : Word), s.st = .idle → s.mem.wf = true → 0 ≤ a.toInt →
    ∃ t, onEvent (.poke a v) s = .next t ∧ t = s.setMem t.mem ∧ memGet t.mem a.toNat = v ∧
      ∀ b : Nat, b ≠ a.toNat → memGet t.mem b = memGet s.mem b)

/-! ## Operands (40_decode_and_operands.md) -/

/-- 40_decode_and_operands.md R75: `ReadIn` with the running pointer at `p`, for every mode digit. -/
def Obligations.InputParameterInEveryMode : Prop := ∀ (s : State) (d : ModeDigit) (p raw : Word),
  0 ≤ p.toInt → raw = memGet s.mem p.toNat →
  (3 ≤ d.val → readIn s d p = .err .invalidAddressingMode) ∧
  (d.val ≤ 2 → p.toInt = Config.maxW → readIn s d p = .err .arithmeticOverflow) ∧
  (p.toInt < Config.maxW →
    (d.val = 1 → readIn s d p = .ok (raw, p + 1)) ∧
    (d.val = 0 → 0 ≤ raw.toInt → readIn s d p = .ok (memGet s.mem raw.toNat, p + 1)) ∧
    (d.val = 0 → raw.toInt < 0 → readIn s d p = .err .negativeAddress) ∧
    (d.val = 2 → 0 ≤ s.rb.toInt + raw.toInt → s.rb.toInt + raw.toInt ≤ Config.maxW →
      readIn s d p = .ok (memGet s.mem (s.rb.toInt + raw.toInt).toNat, p + 1)) ∧
    (d.val = 2 → s.rb.toInt + raw.toInt < 0 → Config.minW ≤ s.rb.toInt + raw.toInt →
      readIn s d p = .err .negativeAddress) ∧
    (d.val = 2 → ¬ inRange (s.rb.toInt + raw.toInt) → readIn s d p = .err .arithmeticOverflow))

/-- 40_decode_and_operands.md R76: `ResolveOut` with the running pointer at `p`, for every mode digit. -/
def Obligations.OutputParameterInEveryMode : Prop := ∀ (s : State) (d : ModeDigit) (p raw : Word),
  0 ≤ p.toInt → raw = memGet s.mem p.toNat →
  (3 ≤ d.val → resolveOut s d p = .err .invalidAddressingMode) ∧
  (d.val = 1 → resolveOut s d p = .err .immediateWriteTarget) ∧
  (d.val = 0 ∨ d.val = 2 → p.toInt = Config.maxW → resolveOut s d p = .err .arithmeticOverflow) ∧
  (p.toInt < Config.maxW →
    (d.val = 0 → 0 ≤ raw.toInt → resolveOut s d p = .ok (raw, p + 1)) ∧
    (d.val = 0 → raw.toInt < 0 → resolveOut s d p = .err .negativeAddress) ∧
    (d.val = 2 → 0 ≤ s.rb.toInt + raw.toInt → s.rb.toInt + raw.toInt ≤ Config.maxW →
      ∃ t : Word, t.toInt = s.rb.toInt + raw.toInt ∧ resolveOut s d p = .ok (t, p + 1)) ∧
    (d.val = 2 → s.rb.toInt + raw.toInt < 0 → Config.minW ≤ s.rb.toInt + raw.toInt →
      resolveOut s d p = .err .negativeAddress) ∧
    (d.val = 2 → ¬ inRange (s.rb.toInt + raw.toInt) → resolveOut s d p = .err .arithmeticOverflow))

/-- 40_decode_and_operands.md R83: a Position parameter pointing at A, replaced by an Immediate one holding the cell at A,
yields the same value; a Relative parameter replaced by a Position one holding `rb` plus the offset yields the same value
(where the replaced cell is not itself the one read) and the same target. -/
def Obligations.ModesAgreeWhenTheValuesAgree : Prop := ∀ (s : State) (p raw : Word),
  s.mem.wf = true → 0 ≤ p.toInt → raw = memGet s.mem p.toNat →
  (0 ≤ raw.toInt →
    readIn (s.setMem (memPut s.mem p.toNat (memGet s.mem raw.toNat))) 1 p = readIn s 0 p) ∧
  (∀ ea : Word, ea.toInt = s.rb.toInt + raw.toInt → 0 ≤ ea.toInt →
    (ea ≠ p → readIn (s.setMem (memPut s.mem p.toNat ea)) 0 p = readIn s 2 p) ∧
    resolveOut (s.setMem (memPut s.mem p.toNat ea)) 0 p = resolveOut s 2 p)

/-! ## What each instruction completes with (41 to 46) -/

/-- 41_arithmetic.md R90, R91: with both inputs resolvable, the target an address and the exact result inside Int_W, `add`
and `mul` write the exact sum and product to the target, move pc past four cells and change nothing else. The inputs are
read from the state before the write (20_memory.md R41). -/
def Obligations.AddAndMulWriteTheExactResult : Prop := ∀ (s : State) (m0 m1 m2 : ModeDigit),
  s.cellsFit 4 → s.readable m0 (s.param 0) → s.readable m1 (s.param 1) → s.writable m2 (s.param 2) →
  (inRange ((s.inValue m0 (s.param 0)).toInt + (s.inValue m1 (s.param 1)).toInt) →
    ∃ r : Word, r.toInt = (s.inValue m0 (s.param 0)).toInt + (s.inValue m1 (s.param 1)).toInt ∧
      exec (.add m0 m1 m2) s =
        .next ((s.setMem (memPut s.mem (s.ea m2 (s.param 2)).toNat r)).setPc (s.pcPlus 4))) ∧
  (inRange ((s.inValue m0 (s.param 0)).toInt * (s.inValue m1 (s.param 1)).toInt) →
    ∃ r : Word, r.toInt = (s.inValue m0 (s.param 0)).toInt * (s.inValue m1 (s.param 1)).toInt ∧
      exec (.mul m0 m1 m2) s =
        .next ((s.setMem (memPut s.mem (s.ea m2 (s.param 2)).toNat r)).setPc (s.pcPlus 4)))

/-- 44_compare.md R105, R106: with both inputs resolvable and the target an address, `lt` writes 1 or 0 for the signed
strict comparison and `eq` for equality of the whole values; pc moves past four cells; nothing else changes. -/
def Obligations.LtAndEqWriteOneOrZero : Prop := ∀ (s : State) (m0 m1 m2 : ModeDigit),
  s.cellsFit 4 → s.readable m0 (s.param 0) → s.readable m1 (s.param 1) → s.writable m2 (s.param 2) →
  exec (.lt m0 m1 m2) s =
    .next ((s.setMem (memPut s.mem (s.ea m2 (s.param 2)).toNat
      (if (s.inValue m0 (s.param 0)).toInt < (s.inValue m1 (s.param 1)).toInt then 1 else 0))).setPc (s.pcPlus 4)) ∧
  exec (.eq m0 m1 m2) s =
    .next ((s.setMem (memPut s.mem (s.ea m2 (s.param 2)).toNat
      (if (s.inValue m0 (s.param 0)).toInt = (s.inValue m1 (s.param 1)).toInt then 1 else 0))).setPc (s.pcPlus 4))

/-- 42_io.md R95, 47_control_fsm.md R124: with the target an address, `in` captures it, moves pc past two cells, suspends in
AWAIT_INPUT and changes nothing else: no memory is written. -/
def Obligations.InCapturesTheDestinationAndSuspends : Prop := ∀ (s : State) (m0 : ModeDigit),
  s.cellsFit 2 → s.writable m0 (s.param 0) →
  ∃ a : Word, a.toInt = s.ea m0 (s.param 0) ∧
    exec (.inp m0) s = .next { s with inDest := a, pc := s.pcPlus 2, st := .awaitInput }

/-- 42_io.md R96, 47_control_fsm.md R126: with the input resolvable, `out` captures its value, moves pc past two cells,
suspends in HAS_OUTPUT and changes nothing else. -/
def Obligations.OutCapturesTheValueAndSuspends : Prop := ∀ (s : State) (m0 : ModeDigit),
  s.cellsFit 2 → s.readable m0 (s.param 0) →
  exec (.out m0) s = .next { s with outVal := s.inValue m0 (s.param 0), pc := s.pcPlus 2, st := .hasOutput }

/-- 43_jumps.md R100, R101: with both inputs resolvable and, when the jump is taken, a target that is not negative, `jt`
goes to its target exactly when the condition is not 0, `jf` exactly when it is 0, and each else past three cells; nothing
but pc changes. -/
def Obligations.JumpsGoToTheTargetExactlyWhenTaken : Prop := ∀ (s : State) (m0 m1 : ModeDigit),
  s.cellsFit 3 → s.readable m0 (s.param 0) → s.readable m1 (s.param 1) →
  ((s.inValue m0 (s.param 0) ≠ 0 → 0 ≤ (s.inValue m1 (s.param 1)).toInt) →
    exec (.jt m0 m1) s = .next (s.setPc
      (if s.inValue m0 (s.param 0) ≠ 0 then s.inValue m1 (s.param 1) else s.pcPlus 3))) ∧
  ((s.inValue m0 (s.param 0) = 0 → 0 ≤ (s.inValue m1 (s.param 1)).toInt) →
    exec (.jf m0 m1) s = .next (s.setPc
      (if s.inValue m0 (s.param 0) = 0 then s.inValue m1 (s.param 1) else s.pcPlus 3)))

/-- 45_relative_base.md R110: with the input resolvable and the new base inside Int_W, `arb` adds the value, read with the
old base, to the base, moves pc past two cells and changes nothing else. -/
def Obligations.ArbAddsToTheRelativeBase : Prop := ∀ (s : State) (m0 : ModeDigit),
  s.cellsFit 2 → s.readable m0 (s.param 0) → inRange (s.rb.toInt + (s.inValue m0 (s.param 0)).toInt) →
  ∃ v : Word, v.toInt = s.rb.toInt + (s.inValue m0 (s.param 0)).toInt ∧
    exec (.arb m0) s = .next ((s.setRb v).setPc (s.pcPlus 2))

/-- 46_halt.md R113: every non-negative word whose last two digits are 99 halts: pc moves past the word, st becomes HALTED
and nothing else changes; the only error possible is ArithmeticOverflow at ADDR_MAX. -/
def Obligations.EveryWordEndingIn99Halts : Prop :=
  (∀ s : State, s.cellsFit 1 → exec .hlt s = .next ((s.setSt .halted).setPc (s.pcPlus 1))) ∧
  (∀ s : State, s.st = .running → s.hostEvent = none → 0 ≤ s.pc.toInt → 0 ≤ s.word.toInt → s.word.toNat % 100 = 99 →
    (s.pc.toInt < Config.maxW → step s = .next ((s.onItsTurn.setSt .halted).setPc (s.pcPlus 1))) ∧
    (s.pc.toInt = Config.maxW → step s = .next (s.onItsTurn.enterError .arithmeticOverflow)))

/-- 45_relative_base.md R111: an `arb` by k and then an `arb` by -k, each with its operand in any mode, leave the machine as
it was, but for pc: the base, and so every later relative-mode address, is restored. The second never overflows. -/
def Obligations.AdjustingByKThenByMinusKRestoresTheBase : Prop := ∀ (s t : State) (m0 m1 : ModeDigit),
  s.cellsFit 4 → s.readable m0 (s.param 0) → inRange (s.rb.toInt + (s.inValue m0 (s.param 0)).toInt) →
  exec (.arb m0) s = .next t → t.readable m1 (t.param 0) →
  (t.inValue m1 (t.param 0)).toInt = -(s.inValue m0 (s.param 0)).toInt →
  exec (.arb m1) t = .next (s.setPc (s.pcPlus 4))

/-- 20_memory.md R43, 70_reset_and_hazards.md R177: an `add` that stores into the cell after itself is followed by the
instruction it stored: the next fetch decodes the new value. -/
def Obligations.StoredWordIsTheNextInstruction : Prop := ∀ (s : State) (m0 m1 m2 : ModeDigit) (r : Word),
  s.mem.wf = true → s.pc.toInt + 5 ≤ Config.maxW → 0 ≤ s.pc.toInt →
  s.readable m0 (s.param 0) → s.readable m1 (s.param 1) → s.writable m2 (s.param 2) →
  s.ea m2 (s.param 2) = s.pc.toInt + 4 →
  r.toInt = (s.inValue m0 (s.param 0)).toInt + (s.inValue m1 (s.param 1)).toInt →
  ∃ t, exec (.add m0 m1 m2) s = .next t ∧ t.pc = s.pcPlus 4 ∧ t.word = r ∧
    ∀ i, decode r = .instr i → fetchDecode t = .ok i

/-! ## Errors (60_exceptions.md, 43_jumps.md) -/

/-- 60_exceptions.md R151: the error reported is the first in the rule's order, and where the list is empty none is raised.
Before that list: at ADDR_MAX the overflow of the fetch comes even before InvalidOpcode. -/
def Obligations.ErrorReportedIsTheFirstInOrder : Prop :=
  (∀ (i : Instr) (s : State), 0 ≤ s.pc.toInt →
    match errorsAt i s with
    | c :: _ => exec i s = .next (s.enterError c)
    | [] => ∃ t, exec i s = .next t ∧ t.errCause = s.errCause ∧ t.errPc = s.errPc ∧ (t.st = .error → s.st = .error)) ∧
  (∀ s : State, s.st = .running → s.hostEvent = none → 0 ≤ s.pc.toInt →
    (s.pc.toInt = Config.maxW → step s = .next (s.onItsTurn.enterError .arithmeticOverflow)) ∧
    (s.pc.toInt < Config.maxW → ∀ why, decode s.word = .refused why →
      step s = .next (s.onItsTurn.enterError .invalidOpcode)))

/-- 60_exceptions.md R152, R153: a step that ends in ERROR has recorded a cause and the failing instruction's address, and
pc, rb, memory, in_dest and out_val are as they were. -/
def Obligations.FailedStepCommitsNothing : Prop := ∀ s t : State,
  s.st = .running → s.hostEvent = none → step s = .next t → t.st = .error →
  t = s.onItsTurn.enterError t.errCause ∧ t.errCause ≠ .none ∧ t.errPc = s.pc ∧
  t.pc = s.pc ∧ t.rb = s.rb ∧ t.mem = s.mem ∧ t.inDest = s.inDest ∧ t.outVal = s.outVal

/-- 30_encoding.md R58, R59; 60_exceptions.md R142: a step raises InvalidOpcode exactly when its word is negative or its
code is none of the ten (below ADDR_MAX, where the fetch itself overflows first). -/
def Obligations.InvalidOpcodeExactlyOnIllegalWords : Prop := ∀ s : State,
  s.st = .running → s.hostEvent = none → 0 ≤ s.pc.toInt → s.pc.toInt < Config.maxW →
  (step s = .next (s.onItsTurn.enterError .invalidOpcode) ↔
    s.word.toInt < 0 ∨ s.word.toNat % 100 ∉ [1, 2, 3, 4, 5, 6, 7, 8, 9, 99])

/-- 60_exceptions.md R146 (the results): a sum, a product or a new relative base outside Int_W raises ArithmeticOverflow;
nothing wraps and nothing is written. -/
def Obligations.ResultOutsideTheRangeOverflows : Prop := ∀ (s : State) (m0 m1 m2 : ModeDigit),
  (s.cellsFit 4 → s.readable m0 (s.param 0) → s.readable m1 (s.param 1) → s.writable m2 (s.param 2) →
    (¬ inRange ((s.inValue m0 (s.param 0)).toInt + (s.inValue m1 (s.param 1)).toInt) →
      exec (.add m0 m1 m2) s = .next (s.enterError .arithmeticOverflow)) ∧
    (¬ inRange ((s.inValue m0 (s.param 0)).toInt * (s.inValue m1 (s.param 1)).toInt) →
      exec (.mul m0 m1 m2) s = .next (s.enterError .arithmeticOverflow))) ∧
  (s.cellsFit 2 → s.readable m0 (s.param 0) → ¬ inRange (s.rb.toInt + (s.inValue m0 (s.param 0)).toInt) →
    exec (.arb m0) s = .next (s.enterError .arithmeticOverflow))

/-- 43_jumps.md R102: a taken jump with a negative target raises NegativeAddress and leaves pc; one that is not taken does
not check its target. -/
def Obligations.NegativeTargetIsAnErrorOnlyWhenTaken : Prop := ∀ (s : State) (m0 m1 : ModeDigit),
  s.cellsFit 3 → s.readable m0 (s.param 0) → s.readable m1 (s.param 1) → (s.inValue m1 (s.param 1)).toInt < 0 →
  (s.inValue m0 (s.param 0) ≠ 0 →
    exec (.jt m0 m1) s = .next (s.enterError .negativeAddress) ∧ exec (.jf m0 m1) s = .next (s.setPc (s.pcPlus 3))) ∧
  (s.inValue m0 (s.param 0) = 0 →
    exec (.jt m0 m1) s = .next (s.setPc (s.pcPlus 3)) ∧ exec (.jf m0 m1) s = .next (s.enterError .negativeAddress))

/-- 43_jumps.md R103: a taken jump to any address, ADDR_MAX included, succeeds; where the cell there reads 0, the next step
raises InvalidOpcode with err_pc the jump target (at ADDR_MAX its fetch overflows first, 60_exceptions.md R151). -/
def Obligations.JumpToAnUnwrittenCellFailsAtTheNextFetch : Prop := ∀ (s : State) (m0 m1 : ModeDigit) (i : Instr),
  s.st = .running → s.host = [] → s.cellsFit 3 → s.readable m0 (s.param 0) → s.readable m1 (s.param 1) →
  0 ≤ (s.inValue m1 (s.param 1)).toInt → (i = .jt m0 m1 ∨ i = .jf m0 m1) → jumpTaken i s →
  exec i s = .next (s.setPc (s.inValue m1 (s.param 1))) ∧
  (memGet s.mem (s.inValue m1 (s.param 1)).toNat = 0 →
    ∃ u, step (s.setPc (s.inValue m1 (s.param 1))) = .next u ∧ u.st = .error ∧
      u.errPc = s.inValue m1 (s.param 1) ∧
      u.errCause = (if (s.inValue m1 (s.param 1)).toInt = Config.maxW then .arithmeticOverflow else .invalidOpcode))

/-- 60_exceptions.md R155: a resume whose next step fails ends in ERROR, and the resume's own write has taken effect and is
not undone. -/
def Obligations.ErrorAfterAResumeKeepsTheInput : Prop := ∀ (s t u : State) (v : Word),
  s.st = .awaitInput → s.mem.wf = true → 0 ≤ s.inDest.toInt → s.host = [.whenStopped (.resume v)] →
  step s = .next t → step t = .next u → u.st = .error →
  u.mem = t.mem ∧ memGet u.mem s.inDest.toNat = v ∧ u.errPc = s.pc

/-! ## Frames -/

/-- 10_state.md R10 (who writes each piece of state): when an instruction answers a next state, rb is unchanged unless it
is `arb`, in_dest unless it is `in`, out_val unless it is `out`; err_cause and err_pc are unchanged, and st too but for `in`,
`out` and `hlt`, unless the step took an error; the model's own fields are unchanged. -/
def Obligations.RegistersChangeOnlyByTheirInstruction : Prop := ∀ (i : Instr) (s t : State),
  exec i s = .next t →
  (i.code ≠ 9 → t.rb = s.rb) ∧ (i.code ≠ 3 → t.inDest = s.inDest) ∧ (i.code ≠ 4 → t.outVal = s.outVal) ∧
  t.host = s.host ∧ t.draws = s.draws ∧
  ((∃ c, c ≠ .none ∧ t = s.enterError c) ∨
    (t.errCause = s.errCause ∧ t.errPc = s.errPc ∧
      t.st = (if i.code = 3 then .awaitInput else if i.code = 4 then .hasOutput else if i.code = 99 then .halted
        else s.st)))

/-- 20_memory.md R39, R41: `add`, `mul`, `lt`, `eq` leave every cell but the one at the resolved target of parameter 2 as it
was, and every cell where that target does not resolve. -/
def Obligations.StoringInstructionsWriteOnlyTheirTarget : Prop := ∀ (i : Instr) (m0 m1 m2 : ModeDigit) (s t : State),
  (i = .add m0 m1 m2 ∨ i = .mul m0 m1 m2 ∨ i = .lt m0 m1 m2 ∨ i = .eq m0 m1 m2) →
  s.mem.wf = true → exec i s = .next t →
  match resolveOut s m2 (s.pcPlus 3) with
  | .ok (a, _) => ∀ b : Nat, b ≠ a.toNat → memGet t.mem b = memGet s.mem b
  | _ => ∀ b : Nat, memGet t.mem b = memGet s.mem b

/-- 20_memory.md R39: `in`, `out`, `jt`, `jf`, `arb` and `hlt` leave every cell as it was. -/
def Obligations.OtherInstructionsWriteNoMemory : Prop := ∀ (i : Instr) (s t : State),
  i.code ∈ [3, 4, 5, 6, 9, 99] → exec i s = .next t → ∀ b : Nat, memGet t.mem b = memGet s.mem b

/-- 45_relative_base.md R112: an instruction without a Relative parameter, other than `arb`, does the same whatever rb is. -/
def Obligations.RelativeBaseMattersOnlyToRelativeModeAndArb : Prop := ∀ (i : Instr) (s : State) (v : Word),
  (∀ d ∈ i.digits, d.val ≠ 2) → i.code ≠ 9 →
  match exec i s with
  | .next t => exec i (s.setRb v) = .next (t.setRb v)
  | .fault f => exec i (s.setRb v) = .fault f
  | .refused r => exec i (s.setRb v) = .refused r

/-- 10_state.md R17, R18, R19; 47_control_fsm.md R135: no step reads in_dest outside AWAIT_INPUT, or out_val or err_pc in
any state: two states that differ in such a latch alone step alike, but for that latch. -/
def Obligations.InvalidLatchesAreNeverRead : Prop := ∀ (s : State) (v : Word),
  (s.st ≠ .awaitInput → sameUpTo (fun t => t.setInDest 0) (step s) (step (s.setInDest v))) ∧
  sameUpTo (fun t => t.setOutVal 0) (step s) (step (s.setOutVal v)) ∧
  sameUpTo (fun t => t.setErrPc 0) (step s) (step (s.setErrPc v))

/-! ## The control state machine and the host (47_control_fsm.md, 70_reset_and_hazards.md, 10_state.md) -/

/-- 00_scope.md R9, 47_control_fsm.md R132, R135: what the host does enters a step as a parameter, its event, and in no other
way: a transition on a given event does the same whatever moves the host is still to make, and the step is that transition
on the event that has a move now. (That the moves to come stand in the state is the model's, log entry 6.) -/
def Obligations.HostMovesEnterOnlyAsTheEvent : Prop :=
  (∀ (e : Option HostEvent) (s : State) (h : List HostMove),
    sameUpTo (fun t => t.setHost []) (transitionOn e s) (transitionOn e (s.setHost h))) ∧
  (∀ s : State, sameUpTo (fun t => t.setHost []) (step s) (transitionOn s.hostEvent s))

/-- 40_decode_and_operands.md R70: in RUNNING, when no event of the host comes and the word at pc decodes to an
instruction, the step is exactly `exec` of it. Around it the model's step only uses up a `pass` or an ignored event of the
host (log entry 6). -/
def Obligations.StepRunsTheDecodedInstruction : Prop := ∀ (s : State) (i : Instr),
  s.st = .running → s.hostEvent = none → 0 ≤ s.pc.toInt → decode s.word = .instr i → step s = exec i s.onItsTurn

/-- 47_control_fsm.md R125: resuming from AWAIT_INPUT writes the supplied value to the captured destination and re-enters
the run loop at the captured pc, so that a value stored at pc is the word fetched next. Nothing is said of the latches, none
of which is valid in RUNNING (10_state.md R17, R18, R19). -/
def Obligations.ResumeWritesTheInputAndRuns : Prop := ∀ (s : State) (v : Word),
  s.st = .awaitInput → s.hostEvent = some (.resume v) → s.mem.wf = true → 0 ≤ s.inDest.toInt →
  ∃ t, step s = .next t ∧ t.st = .running ∧ memGet t.mem s.inDest.toNat = v ∧
    (∀ b : Nat, b ≠ s.inDest.toNat → memGet t.mem b = memGet s.mem b) ∧
    t.pc = s.pc ∧ t.rb = s.rb ∧ t.errCause = s.errCause ∧ (s.inDest = s.pc → t.word = v)

/-- 47_control_fsm.md R127: resuming from HAS_OUTPUT re-enters the run loop whatever stands on in_data. Nothing is said of
the latches, none of which is valid in RUNNING (10_state.md R17, R18, R19). -/
def Obligations.ResumeAfterOutputRunsOn : Prop := ∀ (s : State) (v : Word),
  s.st = .hasOutput → s.hostEvent = some (.resume v) →
  ∃ t, step s = .next t ∧ t.st = .running ∧ t.mem = s.mem ∧ t.pc = s.pc ∧ t.rb = s.rb ∧ t.errCause = s.errCause

/-- 47_control_fsm.md R121, R122: `cmd_run` starts the core from IDLE and changes nothing else. (That the host's move
stands in the state and is used up is the model's, log entry 6.) -/
def Obligations.RunStartsTheCoreFromIdle : Prop := ∀ s : State,
  s.st = .idle → s.hostEvent = some .run → step s = .next (s.moveUsed.setSt .running)

/-- 47_control_fsm.md R133, 20_memory.md R44: an event that the transition table does not list for the state changes
nothing, and the host reads memory in IDLE and HALTED only; in RUNNING such an event does not take the core's turn either
(R134). -/
def Obligations.UnlistedEventsChangeNothing : Prop := ∀ s : State,
  (s.st ≠ .idle → onEvent .run s = .next s) ∧
  (s.st ≠ .awaitInput → s.st ≠ .hasOutput → ∀ v, onEvent (.resume v) s = .next s) ∧
  (s.st ≠ .idle → (∀ a v, onEvent (.poke a v) s = .next s) ∧ ∀ cells, onEvent (.load cells) s = .next s) ∧
  (s.st ≠ .idle → s.st ≠ .halted → ∀ a, hostPeek s a = none) ∧
  (s.st = .running → ∀ e, e ≠ .rst → transitionOn (some e) s = transitionOn none s)

/-- 47_control_fsm.md R121, R129, R133; 46_halt.md R114; 60_exceptions.md R154: no event but rst leaves HALTED or ERROR, and
nothing changes there. (That a step with no event answers the state itself is the model's, log entry 7; that the host's move
stands in the state and is used up, log entry 6.) -/
def Obligations.HaltedAndErrorAreTerminal : Prop := ∀ s : State,
  s.st = .halted ∨ s.st = .error → s.hostEvent ≠ some .rst → step s = .next s.moveUsed

/-- 47_control_fsm.md R137, R124: in the suspend states the core does nothing and changes nothing until the host resumes it
or resets it. (The step that answers the state itself is the model's, log entry 7; the host's move in the state, log
entry 6.) -/
def Obligations.SuspendedCoreWaitsForTheHost : Prop := ∀ s : State,
  s.st = .awaitInput ∨ s.st = .hasOutput → s.hostEvent ≠ some .rst → (∀ v, s.hostEvent ≠ some (.resume v)) →
  step s = .next s.moveUsed

/-- 47_control_fsm.md R128, 46_halt.md R114: AWAIT_INPUT, HAS_OUTPUT and HALTED are entered from RUNNING only, each by its
own instruction. -/
def Obligations.StopsAreEnteredOnlyByTheirInstruction : Prop := ∀ s t : State,
  step s = .next t → t.st ≠ s.st →
  (t.st = .awaitInput → s.st = .running ∧ ∃ m0, decode s.word = .instr (.inp m0)) ∧
  (t.st = .hasOutput → s.st = .running ∧ ∃ m0, decode s.word = .instr (.out m0)) ∧
  (t.st = .halted → s.st = .running ∧ decode s.word = .instr .hlt) ∧
  (t.st = .error → s.st = .running)

/-- 10_state.md R15: rb changes only in a step of `arb`, or by reset. -/
def Obligations.RelativeBaseChangesOnlyByArbOrReset : Prop := ∀ s t : State,
  step s = .next t → t.rb ≠ s.rb →
  s.hostEvent = some .rst ∨ (s.st = .running ∧ ∃ m0, decode s.word = .instr (.arb m0))

/-- 20_memory.md R40, R44, R45: memory changes only in a step of a storing instruction, by the write of a resume from
AWAIT_INPUT, or by a host write in IDLE. -/
def Obligations.MemoryChangesOnlyByStoreResumeOrHostWrite : Prop := ∀ s t : State,
  step s = .next t → t.mem ≠ s.mem →
  (s.st = .running ∧ ∃ i, decode s.word = .instr i ∧ i.code ∈ [1, 2, 7, 8]) ∨
  (s.st = .awaitInput ∧ ∃ v, s.hostEvent = some (.resume v)) ∨
  (s.st = .idle ∧ ((∃ a v, s.hostEvent = some (.poke a v)) ∨ ∃ cells, s.hostEvent = some (.load cells)))

/-- 10_state.md R24: the values the spec gives for reset, at State.reset, where (the model's choice of launch memory, log
entry 3) every cell reads 0. -/
def Obligations.ResetStateHasTheStatedValues : Prop :=
  State.reset.pc = 0 ∧ State.reset.rb = 0 ∧ State.reset.st = .idle ∧ State.reset.errCause = .none ∧
  ∀ a, memGet State.reset.mem a = 0

/-- 70_reset_and_hazards.md R170, R171: the reset event, in any state, between steps: st IDLE, pc 0, rb 0, err_cause 0; memory
is not written. Nothing is said of the latches, which are unspecified. -/
def Obligations.ResetEventFromAnyState : Prop := ∀ s : State,
  s.hostEvent = some .rst →
  ∃ t, step s = .next t ∧ t.st = .idle ∧ t.pc = 0 ∧ t.rb = 0 ∧ t.errCause = .none ∧ t.mem = s.mem

/-- 10_state.md R16; 60_exceptions.md R141: the numeric codes of the control states and of the error kinds. -/
def Obligations.StatusCodesAreTheSpecs : Prop :=
  (ctrlCode .idle = 0 ∧ ctrlCode .running = 1 ∧ ctrlCode .awaitInput = 2 ∧ ctrlCode .hasOutput = 3 ∧
    ctrlCode .halted = 4 ∧ ctrlCode .error = 5) ∧
  (causeCode .none = 0 ∧ causeCode .invalidOpcode = 1 ∧ causeCode .invalidAddressingMode = 2 ∧
    causeCode .immediateWriteTarget = 3 ∧ causeCode .negativeAddress = 4 ∧ causeCode .arithmeticOverflow = 6 ∧
    ∀ c, causeCode c ≠ 5 ∧ causeCode c ≠ 7)

/-- 10_state.md R23, R17, R18; 47_control_fsm.md R131: what the host sees: while RUNNING only st; in_dest only in
AWAIT_INPUT, out_val only in HAS_OUTPUT, err_pc only in ERROR; a memory cell in IDLE and HALTED. (That err_cause is seen in
every state but RUNNING is the model's choice, log entry 20.) -/
def Obligations.HostSeesOnlyWhatTheStateOffers : Prop := ∀ s : State,
  (s.st = .running → hostView s = ⟨.running, none, none, none, none⟩) ∧
  (s.st ≠ .running → (hostView s).errCause = some s.errCause) ∧
  (hostView s).st = s.st ∧
  (∀ v, (hostView s).inDest = some v ↔ s.st = .awaitInput ∧ s.inDest = v) ∧
  (∀ v, (hostView s).outVal = some v ↔ s.st = .hasOutput ∧ s.outVal = v) ∧
  (∀ v, (hostView s).errPc = some v ↔ s.st = .error ∧ s.errPc = v) ∧
  (∀ a v, hostPeek s a = some v ↔
    (s.st = .idle ∨ s.st = .halted) ∧ 0 ≤ a.toInt ∧ memGet s.mem a.toNat = v)

/-! ## The invariant -/

/-- 10_state.md R14, R19; 42_io.md R95: the invariant holds at reset. (err_pc's clause is vacuous there; the latches' reset
values play no part.) -/
def Obligations.InvariantHoldsAtReset : Prop := State.reset.Inv

/-- 10_state.md R14, R19; 42_io.md R95: every step keeps the invariant: pc is an address, a core in AWAIT_INPUT holds a
destination that is an address, err_cause is none exactly outside ERROR, err_pc in ERROR is pc, memory is canonical. -/
def Obligations.EveryStepKeepsTheInvariant : Prop := ∀ s t : State, s.Inv → step s = .next t → t.Inv

/-- 70_reset_and_hazards.md R179: from every state of the invariant in RUNNING the core has a next state: it never faults,
never refuses and never gets stuck. The statement says so of every control state and whatever the host does. That a core
outside RUNNING answers the same state when no event comes is the model's reading (log entry 7): the spec says there that
the core waits on the host or is terminal and gives it no move; that the host's moves stand in the state is the model's
choice (log entry 6). -/
def Obligations.MachineNeverGetsStuck : Prop := ∀ s : State, s.Inv → ∃ t, step s = .next t
end

