-- ==== Sys2Proof/Laws/Memory.lean ====
section
/-! SUPPORT. Laws/Memory.lean: every memory operation keeps the canonical form, and what a read gives after a write. -/

namespace Sys2Proof.Machine

theorem memWf_nil : Memory.wf [] = true := rfl

theorem wfFrom_cons {lo k : Nat} {v : Word} {r : Memory} :
    Memory.wfFrom lo ((k, v) :: r) = true ↔
      lo ≤ k ∧ k ≤ Config.addrMax ∧ v ≠ 0 ∧ Memory.wfFrom (k + 1) r = true := by
  simp [Memory.wfFrom, and_assoc]

/-- The form from a later address on implies it from an earlier one. -/
theorem wfFrom_weaken {lo lo' : Nat} {m : Memory} (hle : lo' ≤ lo) (h : Memory.wfFrom lo m = true) :
    Memory.wfFrom lo' m = true := by
  cases m with
  | nil => rfl
  | cons p r =>
    obtain ⟨h1, h2⟩ := wfFrom_cons.1 h
    exact wfFrom_cons.2 ⟨hle.trans h1, h2⟩

theorem memCons_wfFrom {lo a : Nat} {v : Word} {r : Memory} (hlo : lo ≤ a) (ha : a ≤ Config.addrMax)
    (h : Memory.wfFrom (a + 1) r = true) : Memory.wfFrom lo (memCons a v r) = true := by
  unfold memCons
  split
  · exact wfFrom_weaken (by omega) h
  · exact wfFrom_cons.2 ⟨hlo, ha, ‹_›, h⟩

theorem memPut_wfFrom {m : Memory} {lo a : Nat} {v : Word} (hlo : lo ≤ a) (ha : a ≤ Config.addrMax)
    (h : Memory.wfFrom lo m = true) : Memory.wfFrom lo (memPut m a v) = true := by
  induction m generalizing lo with
  | nil => exact memCons_wfFrom hlo ha rfl
  | cons p r ih =>
    obtain ⟨k, x⟩ := p
    obtain ⟨h1, h2, h3, h4⟩ := wfFrom_cons.1 h
    simp only [memPut]
    split
    · exact memCons_wfFrom hlo ha (wfFrom_cons.2 ⟨by omega, h2, h3, h4⟩)
    · split
      · exact memCons_wfFrom hlo ha (by subst_vars; exact h4)
      · exact wfFrom_cons.2 ⟨h1, h2, h3, ih (by omega) h4⟩

/-- A write at an address that exists keeps the canonical form. -/
theorem memPut_wf {m : Memory} {a : Nat} {v : Word} (ha : a ≤ Config.addrMax) (h : m.wf = true) :
    Memory.wf (memPut m a v) = true := memPut_wfFrom (Nat.zero_le _) ha h

/-- Placing cells keeps the canonical form. -/
theorem placeCells_wf {vs : List Word} {a : Nat} {m : Memory} (h : m.wf = true) :
    Memory.wf (placeCells a vs m) = true := by
  induction vs generalizing a m with
  | nil => exact h
  | cons v vs ih =>
    simp only [placeCells]
    split
    · exact ih (memPut_wf ‹_› h)
    · exact ih h

/-- Below the first address of a canonical list every cell reads 0. -/
theorem memGet_below {m : Memory} {lo a : Nat} (h : Memory.wfFrom lo m = true) (ha : a < lo) : memGet m a = 0 := by
  cases m with
  | nil => rfl
  | cons p r =>
    obtain ⟨h1, -⟩ := wfFrom_cons.1 h
    simp only [memGet]
    rw [if_pos (by omega)]

theorem memGet_memCons {lo a b : Nat} {v : Word} {r : Memory} (h : Memory.wfFrom lo r = true) (ha : a < lo) :
    memGet (memCons a v r) b = if b = a then v else if b < a then 0 else memGet r b := by
  unfold memCons
  split
  · subst_vars
    split
    · exact memGet_below h (by omega)
    · split
      · exact memGet_below h (by omega)
      · rfl
  · simp only [memGet]
    split
    · rw [if_neg (by omega)]
    · split <;> rfl

theorem memGet_memPut_from {m : Memory} {lo a b : Nat} {v : Word} (h : Memory.wfFrom lo m = true) :
    memGet (memPut m a v) b = if b = a then v else memGet m b := by
  induction m generalizing lo with
  | nil =>
    have := memGet_memCons (v := v) (b := b) (r := []) (a := a) (lo := a + 1) rfl (by omega)
    simp only [memPut, this, memGet]
    split
    · rfl
    · split <;> rfl
  | cons p r ih =>
    obtain ⟨k, x⟩ := p
    obtain ⟨-, h2, h3, h4⟩ := wfFrom_cons.1 h
    simp only [memPut]
    split
    · rw [memGet_memCons (lo := a + 1) (wfFrom_cons.2 ⟨by omega, h2, h3, h4⟩) (by omega)]
      split
      · rfl
      · split
        · simp only [memGet]; rw [if_pos (by omega)]
        · rfl
    · split
      · subst_vars
        rw [memGet_memCons h4 (by omega)]
        simp only [memGet]
        split
        · rfl
        · split <;> rfl
      · simp only [memGet, ih h4]
        split
        · rw [if_neg (by omega)]
        · split
          · rw [if_neg (by omega)]
          · rfl

/-- A read after a write: the value written at its address, what was there at every other. -/
theorem memGet_memPut {m : Memory} (h : m.wf = true) (a b : Nat) (v : Word) :
    memGet (memPut m a v) b = if b = a then v else memGet m b := memGet_memPut_from h

end Sys2Proof.Machine
end

