-- ==== Sys2Proof/Laws/State.lean ====
section
/-! SUPPORT. Laws/State.lean: one lemma for each field under each named update, so that no proof unfolds a record update. -/

namespace Sys2Proof.Machine

variable (s : State)

@[simp] theorem State.setPc_pc (v : Word) : (s.setPc v).pc = v := rfl
@[simp] theorem State.setPc_rb (v : Word) : (s.setPc v).rb = s.rb := rfl
@[simp] theorem State.setPc_st (v : Word) : (s.setPc v).st = s.st := rfl
@[simp] theorem State.setPc_inDest (v : Word) : (s.setPc v).inDest = s.inDest := rfl
@[simp] theorem State.setPc_outVal (v : Word) : (s.setPc v).outVal = s.outVal := rfl
@[simp] theorem State.setPc_errCause (v : Word) : (s.setPc v).errCause = s.errCause := rfl
@[simp] theorem State.setPc_errPc (v : Word) : (s.setPc v).errPc = s.errPc := rfl
@[simp] theorem State.setPc_mem (v : Word) : (s.setPc v).mem = s.mem := rfl
@[simp] theorem State.setPc_host (v : Word) : (s.setPc v).host = s.host := rfl
@[simp] theorem State.setPc_draws (v : Word) : (s.setPc v).draws = s.draws := rfl

@[simp] theorem State.setRb_pc (v : Word) : (s.setRb v).pc = s.pc := rfl
@[simp] theorem State.setRb_rb (v : Word) : (s.setRb v).rb = v := rfl
@[simp] theorem State.setRb_st (v : Word) : (s.setRb v).st = s.st := rfl
@[simp] theorem State.setRb_inDest (v : Word) : (s.setRb v).inDest = s.inDest := rfl
@[simp] theorem State.setRb_outVal (v : Word) : (s.setRb v).outVal = s.outVal := rfl
@[simp] theorem State.setRb_errCause (v : Word) : (s.setRb v).errCause = s.errCause := rfl
@[simp] theorem State.setRb_errPc (v : Word) : (s.setRb v).errPc = s.errPc := rfl
@[simp] theorem State.setRb_mem (v : Word) : (s.setRb v).mem = s.mem := rfl
@[simp] theorem State.setRb_host (v : Word) : (s.setRb v).host = s.host := rfl
@[simp] theorem State.setRb_draws (v : Word) : (s.setRb v).draws = s.draws := rfl

@[simp] theorem State.setSt_pc (c : Ctrl) : (s.setSt c).pc = s.pc := rfl
@[simp] theorem State.setSt_rb (c : Ctrl) : (s.setSt c).rb = s.rb := rfl
@[simp] theorem State.setSt_st (c : Ctrl) : (s.setSt c).st = c := rfl
@[simp] theorem State.setSt_inDest (c : Ctrl) : (s.setSt c).inDest = s.inDest := rfl
@[simp] theorem State.setSt_outVal (c : Ctrl) : (s.setSt c).outVal = s.outVal := rfl
@[simp] theorem State.setSt_errCause (c : Ctrl) : (s.setSt c).errCause = s.errCause := rfl
@[simp] theorem State.setSt_errPc (c : Ctrl) : (s.setSt c).errPc = s.errPc := rfl
@[simp] theorem State.setSt_mem (c : Ctrl) : (s.setSt c).mem = s.mem := rfl
@[simp] theorem State.setSt_host (c : Ctrl) : (s.setSt c).host = s.host := rfl
@[simp] theorem State.setSt_draws (c : Ctrl) : (s.setSt c).draws = s.draws := rfl

@[simp] theorem State.setInDest_pc (v : Word) : (s.setInDest v).pc = s.pc := rfl
@[simp] theorem State.setInDest_rb (v : Word) : (s.setInDest v).rb = s.rb := rfl
@[simp] theorem State.setInDest_st (v : Word) : (s.setInDest v).st = s.st := rfl
@[simp] theorem State.setInDest_inDest (v : Word) : (s.setInDest v).inDest = v := rfl
@[simp] theorem State.setInDest_outVal (v : Word) : (s.setInDest v).outVal = s.outVal := rfl
@[simp] theorem State.setInDest_errCause (v : Word) : (s.setInDest v).errCause = s.errCause := rfl
@[simp] theorem State.setInDest_errPc (v : Word) : (s.setInDest v).errPc = s.errPc := rfl
@[simp] theorem State.setInDest_mem (v : Word) : (s.setInDest v).mem = s.mem := rfl
@[simp] theorem State.setInDest_host (v : Word) : (s.setInDest v).host = s.host := rfl
@[simp] theorem State.setInDest_draws (v : Word) : (s.setInDest v).draws = s.draws := rfl

@[simp] theorem State.setOutVal_pc (v : Word) : (s.setOutVal v).pc = s.pc := rfl
@[simp] theorem State.setOutVal_rb (v : Word) : (s.setOutVal v).rb = s.rb := rfl
@[simp] theorem State.setOutVal_st (v : Word) : (s.setOutVal v).st = s.st := rfl
@[simp] theorem State.setOutVal_inDest (v : Word) : (s.setOutVal v).inDest = s.inDest := rfl
@[simp] theorem State.setOutVal_outVal (v : Word) : (s.setOutVal v).outVal = v := rfl
@[simp] theorem State.setOutVal_errCause (v : Word) : (s.setOutVal v).errCause = s.errCause := rfl
@[simp] theorem State.setOutVal_errPc (v : Word) : (s.setOutVal v).errPc = s.errPc := rfl
@[simp] theorem State.setOutVal_mem (v : Word) : (s.setOutVal v).mem = s.mem := rfl
@[simp] theorem State.setOutVal_host (v : Word) : (s.setOutVal v).host = s.host := rfl
@[simp] theorem State.setOutVal_draws (v : Word) : (s.setOutVal v).draws = s.draws := rfl

@[simp] theorem State.setErrPc_pc (v : Word) : (s.setErrPc v).pc = s.pc := rfl
@[simp] theorem State.setErrPc_rb (v : Word) : (s.setErrPc v).rb = s.rb := rfl
@[simp] theorem State.setErrPc_st (v : Word) : (s.setErrPc v).st = s.st := rfl
@[simp] theorem State.setErrPc_inDest (v : Word) : (s.setErrPc v).inDest = s.inDest := rfl
@[simp] theorem State.setErrPc_outVal (v : Word) : (s.setErrPc v).outVal = s.outVal := rfl
@[simp] theorem State.setErrPc_errCause (v : Word) : (s.setErrPc v).errCause = s.errCause := rfl
@[simp] theorem State.setErrPc_errPc (v : Word) : (s.setErrPc v).errPc = v := rfl
@[simp] theorem State.setErrPc_mem (v : Word) : (s.setErrPc v).mem = s.mem := rfl
@[simp] theorem State.setErrPc_host (v : Word) : (s.setErrPc v).host = s.host := rfl
@[simp] theorem State.setErrPc_draws (v : Word) : (s.setErrPc v).draws = s.draws := rfl

@[simp] theorem State.setMem_pc (m : Memory) : (s.setMem m).pc = s.pc := rfl
@[simp] theorem State.setMem_rb (m : Memory) : (s.setMem m).rb = s.rb := rfl
@[simp] theorem State.setMem_st (m : Memory) : (s.setMem m).st = s.st := rfl
@[simp] theorem State.setMem_inDest (m : Memory) : (s.setMem m).inDest = s.inDest := rfl
@[simp] theorem State.setMem_outVal (m : Memory) : (s.setMem m).outVal = s.outVal := rfl
@[simp] theorem State.setMem_errCause (m : Memory) : (s.setMem m).errCause = s.errCause := rfl
@[simp] theorem State.setMem_errPc (m : Memory) : (s.setMem m).errPc = s.errPc := rfl
@[simp] theorem State.setMem_mem (m : Memory) : (s.setMem m).mem = m := rfl
@[simp] theorem State.setMem_host (m : Memory) : (s.setMem m).host = s.host := rfl
@[simp] theorem State.setMem_draws (m : Memory) : (s.setMem m).draws = s.draws := rfl

@[simp] theorem State.setHost_pc (h : List HostMove) : (s.setHost h).pc = s.pc := rfl
@[simp] theorem State.setHost_rb (h : List HostMove) : (s.setHost h).rb = s.rb := rfl
@[simp] theorem State.setHost_st (h : List HostMove) : (s.setHost h).st = s.st := rfl
@[simp] theorem State.setHost_inDest (h : List HostMove) : (s.setHost h).inDest = s.inDest := rfl
@[simp] theorem State.setHost_outVal (h : List HostMove) : (s.setHost h).outVal = s.outVal := rfl
@[simp] theorem State.setHost_errCause (h : List HostMove) : (s.setHost h).errCause = s.errCause := rfl
@[simp] theorem State.setHost_errPc (h : List HostMove) : (s.setHost h).errPc = s.errPc := rfl
@[simp] theorem State.setHost_mem (h : List HostMove) : (s.setHost h).mem = s.mem := rfl
@[simp] theorem State.setHost_host (h : List HostMove) : (s.setHost h).host = h := rfl
@[simp] theorem State.setHost_draws (h : List HostMove) : (s.setHost h).draws = s.draws := rfl

@[simp] theorem State.enterError_pc (c : ErrCause) : (s.enterError c).pc = s.pc := rfl
@[simp] theorem State.enterError_rb (c : ErrCause) : (s.enterError c).rb = s.rb := rfl
@[simp] theorem State.enterError_st (c : ErrCause) : (s.enterError c).st = .error := rfl
@[simp] theorem State.enterError_inDest (c : ErrCause) : (s.enterError c).inDest = s.inDest := rfl
@[simp] theorem State.enterError_outVal (c : ErrCause) : (s.enterError c).outVal = s.outVal := rfl
@[simp] theorem State.enterError_errCause (c : ErrCause) : (s.enterError c).errCause = c := rfl
@[simp] theorem State.enterError_errPc (c : ErrCause) : (s.enterError c).errPc = s.pc := rfl
@[simp] theorem State.enterError_mem (c : ErrCause) : (s.enterError c).mem = s.mem := rfl
@[simp] theorem State.enterError_host (c : ErrCause) : (s.enterError c).host = s.host := rfl
@[simp] theorem State.enterError_draws (c : ErrCause) : (s.enterError c).draws = s.draws := rfl

@[simp] theorem State.forgetInDest_pc : (s.forgetInDest).pc = s.pc := rfl
@[simp] theorem State.forgetInDest_rb : (s.forgetInDest).rb = s.rb := rfl
@[simp] theorem State.forgetInDest_st : (s.forgetInDest).st = s.st := rfl
@[simp] theorem State.forgetInDest_inDest : (s.forgetInDest).inDest = Config.freeLatch s.draws := rfl
@[simp] theorem State.forgetInDest_outVal : (s.forgetInDest).outVal = s.outVal := rfl
@[simp] theorem State.forgetInDest_errCause : (s.forgetInDest).errCause = s.errCause := rfl
@[simp] theorem State.forgetInDest_errPc : (s.forgetInDest).errPc = s.errPc := rfl
@[simp] theorem State.forgetInDest_mem : (s.forgetInDest).mem = s.mem := rfl
@[simp] theorem State.forgetInDest_host : (s.forgetInDest).host = s.host := rfl
@[simp] theorem State.forgetInDest_draws : (s.forgetInDest).draws = s.draws + 1 := rfl

@[simp] theorem State.forgetOutVal_pc : (s.forgetOutVal).pc = s.pc := rfl
@[simp] theorem State.forgetOutVal_rb : (s.forgetOutVal).rb = s.rb := rfl
@[simp] theorem State.forgetOutVal_st : (s.forgetOutVal).st = s.st := rfl
@[simp] theorem State.forgetOutVal_inDest : (s.forgetOutVal).inDest = s.inDest := rfl
@[simp] theorem State.forgetOutVal_outVal : (s.forgetOutVal).outVal = Config.freeLatch s.draws := rfl
@[simp] theorem State.forgetOutVal_errCause : (s.forgetOutVal).errCause = s.errCause := rfl
@[simp] theorem State.forgetOutVal_errPc : (s.forgetOutVal).errPc = s.errPc := rfl
@[simp] theorem State.forgetOutVal_mem : (s.forgetOutVal).mem = s.mem := rfl
@[simp] theorem State.forgetOutVal_host : (s.forgetOutVal).host = s.host := rfl
@[simp] theorem State.forgetOutVal_draws : (s.forgetOutVal).draws = s.draws + 1 := rfl

@[simp] theorem State.forgetErrPc_pc : (s.forgetErrPc).pc = s.pc := rfl
@[simp] theorem State.forgetErrPc_rb : (s.forgetErrPc).rb = s.rb := rfl
@[simp] theorem State.forgetErrPc_st : (s.forgetErrPc).st = s.st := rfl
@[simp] theorem State.forgetErrPc_inDest : (s.forgetErrPc).inDest = s.inDest := rfl
@[simp] theorem State.forgetErrPc_outVal : (s.forgetErrPc).outVal = s.outVal := rfl
@[simp] theorem State.forgetErrPc_errCause : (s.forgetErrPc).errCause = s.errCause := rfl
@[simp] theorem State.forgetErrPc_errPc : (s.forgetErrPc).errPc = Config.freeLatch s.draws := rfl
@[simp] theorem State.forgetErrPc_mem : (s.forgetErrPc).mem = s.mem := rfl
@[simp] theorem State.forgetErrPc_host : (s.forgetErrPc).host = s.host := rfl
@[simp] theorem State.forgetErrPc_draws : (s.forgetErrPc).draws = s.draws + 1 := rfl

end Sys2Proof.Machine
end

