-- ==== Sys2Proof/Laws/Policies.lean ====
section
/-! SUPPORT. Laws/Policies.lean: the numbers of Config.lean written out, and each operation that a policy of 00_scope.md R5
decides, at the value the policy has. Proofs cite these and unfold no policy. -/

namespace Sys2Proof.Machine

theorem W_wide_enough : 16 ≤ Config.W := by decide
theorem two_pow_W : 2 ^ Config.W = 18446744073709551616 := by decide
theorem minW_eq : Config.minW = -9223372036854775808 := by decide
theorem maxW_eq : Config.maxW = 9223372036854775807 := by decide
theorem addrMax_eq : (Config.addrMax : Int) = Config.maxW := rfl

theorem outOfRange_eq {α : Type} : (outOfRange : Res α) = .err .arithmeticOverflow := rfl

theorem decode_eq (w : Word) : decode w = if w.toInt < 0 then .refused .negativeWord else decodeNat w.toNat := rfl

theorem jumpTo_eq (s : State) (b : Word) : jumpTo s b = (checkAddress b).bind fun b => .ok (s.setPc b) := rfl

theorem fallThrough_eq (s : State) (b n : Word) : fallThrough s b n = .ok (s.setPc n) := rfl

theorem checkDigits_eq (w : Word) (i : Instr) : checkDigits w i = .ok i := rfl

end Sys2Proof.Machine
end

