-- ==== Sys2Proof/Laws/Word.lean ====
section
/-! SUPPORT. Laws/Word.lean: the bounds of a word's integer, and what `fit`, `advance` and the cell accesses can answer. -/

namespace Sys2Proof.Machine

/-- Every word's integer lies in Int_W (00_scope.md R6). -/
theorem toInt_inRange (w : Word) : Config.minW ≤ w.toInt ∧ w.toInt ≤ Config.maxW := by
  have h1 := BitVec.le_toInt w
  have h2 := BitVec.toInt_lt (x := w)
  rw [minW_eq, maxW_eq]
  norm_num [Config.W] at h1 h2
  omega

/-- A non-negative word's integer is its natural number. -/
theorem toNat_of_nonneg {w : Word} (h : 0 ≤ w.toInt) : (w.toNat : Int) = w.toInt := by
  rw [BitVec.toInt_eq_toNat_cond] at *
  have := w.isLt
  split at h <;> split <;> omega

/-- A non-negative word is an address. -/
theorem toNat_le_addrMax {w : Word} (h : 0 ≤ w.toInt) : w.toNat ≤ Config.addrMax := by
  have h1 := toNat_of_nonneg h
  have h2 := (toInt_inRange w).2
  have h3 := addrMax_eq
  omega

/-- A value of Int_W survives the way into a word and back. -/
theorem toInt_ofInt {v : Int} (h1 : Config.minW ≤ v) (h2 : v ≤ Config.maxW) : (BitVec.ofInt Config.W v).toInt = v := by
  rw [minW_eq] at h1
  rw [maxW_eq] at h2
  rw [BitVec.toInt_ofInt]
  norm_num [Int.bmod, Config.W]
  omega

theorem eq_of_toInt_eq {a b : Word} (h : a.toInt = b.toInt) : a = b := BitVec.eq_of_toInt_eq h

@[simp] theorem Res.bind_ok {α β : Type} (a : α) (f : α → Res β) : (Res.ok a).bind f = f a := rfl
@[simp] theorem Res.bind_err {α β : Type} (c : ErrCause) (f : α → Res β) : (Res.err c).bind f = .err c := rfl
@[simp] theorem Res.bind_stop {α β : Type} (g : Fault) (f : α → Res β) : (Res.stop g).bind f = .stop g := rfl

/-- A chain answers a value exactly when both its parts do. -/
theorem Res.bind_eq_ok {α β : Type} {x : Res α} {f : α → Res β} {b : β} :
    x.bind f = .ok b ↔ ∃ a, x = .ok a ∧ f a = .ok b := by cases x <;> simp [Res.bind]

/-- A chain raises an error exactly when one of its parts does. -/
theorem Res.bind_eq_err {α β : Type} {x : Res α} {f : α → Res β} {c : ErrCause} :
    x.bind f = .err c ↔ x = .err c ∨ ∃ a, x = .ok a ∧ f a = .err c := by cases x <;> simp [Res.bind]

/-- A chain stops exactly when one of its parts does. -/
theorem Res.bind_eq_stop {α β : Type} {x : Res α} {f : α → Res β} {g : Fault} :
    x.bind f = .stop g ↔ x = .stop g ∨ ∃ a, x = .ok a ∧ f a = .stop g := by cases x <;> simp [Res.bind]

@[simp] theorem finish_ok (s t : State) : finish s (.ok t) = .next t := rfl
@[simp] theorem finish_err (s : State) (c : ErrCause) : finish s (.err c) = .next (s.enterError c) := rfl
@[simp] theorem finish_stop (s : State) (f : Fault) : finish s (.stop f) = .fault f := rfl

/-- A step that answers a next state has committed or has taken an error. -/
theorem finish_eq_next {s t : State} {r : Res State} :
    finish s r = .next t ↔ r = .ok t ∨ ∃ c, r = .err c ∧ t = s.enterError c := by
  cases r <;> simp [finish, eq_comm]

theorem fit_ok {v : Int} (h1 : Config.minW ≤ v) (h2 : v ≤ Config.maxW) : fit v = .ok (BitVec.ofInt Config.W v) :=
  if_pos ⟨h1, h2⟩

theorem fit_err {v : Int} (h : ¬(Config.minW ≤ v ∧ v ≤ Config.maxW)) : fit v = .err .arithmeticOverflow := if_neg h

/-- `fit` answers the value itself, or raises ArithmeticOverflow. -/
theorem fit_cases (v : Int) :
    (∃ w, fit v = .ok w ∧ w.toInt = v) ∨
      (fit v = .err .arithmeticOverflow ∧ ¬(Config.minW ≤ v ∧ v ≤ Config.maxW)) := by
  by_cases h : Config.minW ≤ v ∧ v ≤ Config.maxW
  · exact .inl ⟨_, fit_ok h.1 h.2, toInt_ofInt h.1 h.2⟩
  · exact .inr ⟨fit_err h, h⟩

theorem fit_toInt (w : Word) : fit w.toInt = .ok w := by
  rw [fit_ok (toInt_inRange w).1 (toInt_inRange w).2, BitVec.ofInt_toInt]

/-- The running pointer moves by one cell, or stands at ADDR_MAX and the step overflows. -/
theorem advance_cases (p : Word) :
    (∃ q, advance p = .ok q ∧ q.toInt = p.toInt + 1 ∧ p.toInt < Config.maxW) ∨
      (advance p = .err .arithmeticOverflow ∧ p.toInt = Config.maxW) := by
  have hp := toInt_inRange p
  obtain ⟨w, h1, h2⟩ | ⟨h1, h2⟩ := fit_cases (p.toInt + 1)
  · have := (toInt_inRange w).2
    exact .inl ⟨w, h1, h2, by omega⟩
  · exact .inr ⟨h1, by omega⟩

theorem advance_ok {p : Word} (h : p.toInt < Config.maxW) : advance p = .ok (p + 1) := by
  have hp := toInt_inRange p
  unfold advance
  rw [fit_ok (by omega) (by omega), BitVec.ofInt_add, BitVec.ofInt_toInt]
  rfl

theorem advance_err {p : Word} (h : p.toInt = Config.maxW) : advance p = .err .arithmeticOverflow := by
  obtain ⟨q, -, -, h'⟩ | ⟨h', -⟩ := advance_cases p
  · omega
  · exact h'

theorem readCell_ok {s : State} {a : Word} (h : 0 ≤ a.toInt) : readCell s a = .ok (memGet s.mem a.toNat) :=
  if_neg (by omega)

theorem readCell_stop {s : State} {a : Word} (h : a.toInt < 0) : readCell s a = .stop .noSuchAddress := if_pos h

theorem writeCell_ok {s : State} {a v : Word} (h : 0 ≤ a.toInt) :
    writeCell s a v = .ok (s.setMem (memPut s.mem a.toNat v)) := if_neg (by omega)

theorem writeCell_stop {s : State} {a v : Word} (h : a.toInt < 0) : writeCell s a v = .stop .noSuchAddress := if_pos h

end Sys2Proof.Machine
end

