-- ==== Sys2Proof/Laws/Operands.lean ====
section
/-! SUPPORT. Laws/Operands.lean: for each operand form and each format, one lemma that says everything it can answer. A
raised error is never `none` and never InvalidOpcode (which the
decoder alone raises); the fault comes only from a running pointer that is no address. -/

namespace Sys2Proof.Machine

variable {s : State} {d : ModeDigit} {p raw : Word}

/-- A cause an instruction's own computations can raise (60_exceptions.md R143 to R146). -/
abbrev RaisedInside (c : ErrCause) : Prop := c ≠ .none ∧ c ≠ .invalidOpcode

theorem modeOf_cases (d : ModeDigit) :
    (modeOf d = some .position ∧ d.val = 0) ∨ (modeOf d = some .immediate ∧ d.val = 1) ∨
      (modeOf d = some .relative ∧ d.val = 2) ∨ (modeOf d = none ∧ 3 ≤ d.val) := by
  revert d; decide

/-- An address check answers the address itself, which is then not negative, or raises NegativeAddress. -/
theorem checkAddress_cases (ea : Word) :
    (checkAddress ea = .ok ea ∧ 0 ≤ ea.toInt) ∨ (checkAddress ea = .err .negativeAddress ∧ ea.toInt < 0) := by
  unfold checkAddress
  split <;> simp <;> omega

/-- A Relative address is the exact sum, or overflows, or is negative. -/
theorem relativeAddress_cases (s : State) (raw : Word) :
    (∃ ea, relativeAddress s raw = .ok ea ∧ ea.toInt = s.rb.toInt + raw.toInt ∧ 0 ≤ ea.toInt) ∨
    (relativeAddress s raw = .err .negativeAddress ∧ s.rb.toInt + raw.toInt < 0 ∧
      Config.minW ≤ s.rb.toInt + raw.toInt) ∨
    (relativeAddress s raw = .err .arithmeticOverflow ∧
      ¬(Config.minW ≤ s.rb.toInt + raw.toInt ∧ s.rb.toInt + raw.toInt ≤ Config.maxW)) := by
  unfold relativeAddress
  obtain ⟨w, h1, h2⟩ | ⟨h1, h2⟩ := fit_cases (s.rb.toInt + raw.toInt)
  · obtain ⟨h3, h4⟩ | ⟨h3, h4⟩ := checkAddress_cases w
    · exact .inl ⟨w, by simp [h1, h3], h2, h4⟩
    · exact .inr (.inl ⟨by simp [h1, h3], by omega, by rw [← h2]; exact (toInt_inRange w).1⟩)
  · exact .inr (.inr ⟨by simp [h1], h2⟩)

/-- A parameter's cell is read and the pointer passes it; or the pointer stands at ADDR_MAX; or it is no address. -/
theorem readParam_cases (s : State) (p : Word) :
    (∃ q, readParam s p = .ok (memGet s.mem p.toNat, q) ∧ q.toInt = p.toInt + 1 ∧ 0 ≤ p.toInt ∧ p.toInt < Config.maxW) ∨
    (readParam s p = .err .arithmeticOverflow ∧ p.toInt = Config.maxW) ∨
    (readParam s p = .stop .noSuchAddress ∧ p.toInt < 0) := by
  unfold readParam
  by_cases hp : 0 ≤ p.toInt
  · obtain ⟨q, h1, h2, h3⟩ | ⟨h1, h2⟩ := advance_cases p
    · exact .inl ⟨q, by simp [readCell_ok hp, h1], h2, hp, h3⟩
    · exact .inr (.inl ⟨by simp [readCell_ok hp, h1], h2⟩)
  · exact .inr (.inr ⟨by simp [readCell_stop (not_le.1 hp)], by omega⟩)

/-- What `ReadIn` can answer (40_decode_and_operands.md R75). -/
theorem readIn_cases (s : State) (d : ModeDigit) (p : Word) :
    (∃ v q, readIn s d p = .ok (v, q) ∧ q.toInt = p.toInt + 1 ∧ 0 ≤ p.toInt) ∨
    (∃ c, readIn s d p = .err c ∧ RaisedInside c) ∨
    (readIn s d p = .stop .noSuchAddress ∧ p.toInt < 0) := by
  unfold readIn
  obtain ⟨hm, -⟩ | ⟨hm, -⟩ | ⟨hm, -⟩ | ⟨hm, -⟩ := modeOf_cases d
  · obtain ⟨q, h1, h2, h3, -⟩ | ⟨h1, -⟩ | ⟨h1, h2⟩ := readParam_cases s p
    · obtain ⟨h4, h5⟩ | ⟨h4, -⟩ := checkAddress_cases (memGet s.mem p.toNat)
      · exact .inl ⟨_, q, by simp [hm, h1, h4, readCell_ok h5]; rfl, h2, h3⟩
      · exact .inr (.inl ⟨_, by simp [hm, h1, h4]; rfl, by decide⟩)
    · exact .inr (.inl ⟨_, by simp [hm, h1]; rfl, by decide⟩)
    · exact .inr (.inr ⟨by simp [hm, h1], h2⟩)
  · obtain ⟨q, h1, h2, h3, -⟩ | ⟨h1, -⟩ | ⟨h1, h2⟩ := readParam_cases s p
    · exact .inl ⟨_, q, by simp [hm, h1]; rfl, h2, h3⟩
    · exact .inr (.inl ⟨_, by simp [hm, h1]; rfl, by decide⟩)
    · exact .inr (.inr ⟨by simp [hm, h1], h2⟩)
  · obtain ⟨q, h1, h2, h3, -⟩ | ⟨h1, -⟩ | ⟨h1, h2⟩ := readParam_cases s p
    · obtain ⟨ea, h4, -, h5⟩ | ⟨h4, -⟩ | ⟨h4, -⟩ := relativeAddress_cases s (memGet s.mem p.toNat)
      · exact .inl ⟨_, q, by simp [hm, h1, h4, readCell_ok h5]; rfl, h2, h3⟩
      · exact .inr (.inl ⟨_, by simp [hm, h1, h4]; rfl, by decide⟩)
      · exact .inr (.inl ⟨_, by simp [hm, h1, h4]; rfl, by decide⟩)
    · exact .inr (.inl ⟨_, by simp [hm, h1]; rfl, by decide⟩)
    · exact .inr (.inr ⟨by simp [hm, h1], h2⟩)
  · exact .inr (.inl ⟨_, by simp [hm]; rfl, by decide⟩)

/-- What `ResolveOut` can answer (40_decode_and_operands.md R76): a target is never negative. -/
theorem resolveOut_cases (s : State) (d : ModeDigit) (p : Word) :
    (∃ t q, resolveOut s d p = .ok (t, q) ∧ 0 ≤ t.toInt ∧ q.toInt = p.toInt + 1 ∧ 0 ≤ p.toInt) ∨
    (∃ c, resolveOut s d p = .err c ∧ RaisedInside c) ∨
    (resolveOut s d p = .stop .noSuchAddress ∧ p.toInt < 0) := by
  unfold resolveOut
  obtain ⟨hm, -⟩ | ⟨hm, -⟩ | ⟨hm, -⟩ | ⟨hm, -⟩ := modeOf_cases d
  · obtain ⟨q, h1, h2, h3, -⟩ | ⟨h1, -⟩ | ⟨h1, h2⟩ := readParam_cases s p
    · obtain ⟨h4, h5⟩ | ⟨h4, -⟩ := checkAddress_cases (memGet s.mem p.toNat)
      · exact .inl ⟨_, q, by simp [hm, h1, h4], h5, h2, h3⟩
      · exact .inr (.inl ⟨_, by simp [hm, h1, h4]; rfl, by decide⟩)
    · exact .inr (.inl ⟨_, by simp [hm, h1]; rfl, by decide⟩)
    · exact .inr (.inr ⟨by simp [hm, h1], h2⟩)
  · exact .inr (.inl ⟨_, by simp [hm]; rfl, by decide⟩)
  · obtain ⟨q, h1, h2, h3, -⟩ | ⟨h1, -⟩ | ⟨h1, h2⟩ := readParam_cases s p
    · obtain ⟨ea, h4, -, h5⟩ | ⟨h4, -⟩ | ⟨h4, -⟩ := relativeAddress_cases s (memGet s.mem p.toNat)
      · exact .inl ⟨_, q, by simp [hm, h1, h4], h5, h2, h3⟩
      · exact .inr (.inl ⟨_, by simp [hm, h1, h4]; rfl, by decide⟩)
      · exact .inr (.inl ⟨_, by simp [hm, h1, h4]; rfl, by decide⟩)
    · exact .inr (.inl ⟨_, by simp [hm, h1]; rfl, by decide⟩)
    · exact .inr (.inr ⟨by simp [hm, h1], h2⟩)
  · exact .inr (.inl ⟨_, by simp [hm]; rfl, by decide⟩)

/-- What a taken jump can answer (43_jumps.md R102). -/
theorem jumpTo_cases (s : State) (b : Word) :
    (jumpTo s b = .ok (s.setPc b) ∧ 0 ≤ b.toInt) ∨ (jumpTo s b = .err .negativeAddress ∧ b.toInt < 0) := by
  rw [jumpTo_eq]
  obtain ⟨h1, h2⟩ | ⟨h1, h2⟩ := checkAddress_cases b
  · exact .inl ⟨by simp [h1], h2⟩
  · exact .inr ⟨by simp [h1], h2⟩

/-- An operation of the ALU raises no `none` and never stops. -/
def Res.clean {α : Type} (r : Res α) : Prop := (∃ a, r = .ok a) ∨ ∃ c, r = .err c ∧ RaisedInside c

theorem fit_clean (v : Int) : (fit v).clean := by
  obtain ⟨w, h, -⟩ | ⟨h, -⟩ := fit_cases v
  · exact .inl ⟨w, h⟩
  · exact .inr ⟨_, h, by decide⟩

theorem ok_clean {α : Type} (a : α) : (Res.ok a).clean := .inl ⟨a, rfl⟩

/-- What format F3IIO can answer: one write at the resolved target and pc past four cells; or an error; or the fault. -/
theorem threeParam_cases {op : Word → Word → Res Word} (hop : ∀ a b, (op a b).clean) (m0 m1 m2 : ModeDigit) (s : State) :
    (∃ p t q r, resolveOut s m2 p = .ok (t, q) ∧ p.toInt = s.pc.toInt + 3 ∧ q.toInt = s.pc.toInt + 4 ∧
      0 ≤ t.toInt ∧ 0 ≤ s.pc.toInt + 1 ∧
      threeParam op m0 m1 m2 s = .ok ((s.setMem (memPut s.mem t.toNat r)).setPc q)) ∨
    (∃ c, threeParam op m0 m1 m2 s = .err c ∧ RaisedInside c) ∨
    (threeParam op m0 m1 m2 s = .stop .noSuchAddress ∧ s.pc.toInt < 0) := by
  unfold threeParam
  obtain ⟨n0, h0, h0', -⟩ | ⟨h0, -⟩ := advance_cases s.pc
  · obtain ⟨a, n1, h1, h1', h1''⟩ | ⟨c, h1, hc⟩ | ⟨h1, h1'⟩ := readIn_cases s m0 n0
    · obtain ⟨b, n2, h2, h2', -⟩ | ⟨c, h2, hc⟩ | ⟨h2, h2'⟩ := readIn_cases s m1 n1
      · obtain ⟨t, q, h3, ht, h3', -⟩ | ⟨c, h3, hc⟩ | ⟨h3, h3'⟩ := resolveOut_cases s m2 n2
        · obtain ⟨r, hr⟩ | ⟨c, hr, hc⟩ := hop a b
          · exact .inl ⟨n2, t, q, r, h3, by omega, by omega, ht, by omega,
              by simp [h0, h1, h2, h3, hr, writeCell_ok ht]⟩
          · exact .inr (.inl ⟨c, by simp [h0, h1, h2, h3, hr], hc⟩)
        · exact .inr (.inl ⟨c, by simp [h0, h1, h2, h3], hc⟩)
        · exact .inr (.inr ⟨by simp [h0, h1, h2, h3], by omega⟩)
      · exact .inr (.inl ⟨c, by simp [h0, h1, h2], hc⟩)
      · exact .inr (.inr ⟨by simp [h0, h1, h2], by omega⟩)
    · exact .inr (.inl ⟨c, by simp [h0, h1], hc⟩)
    · exact .inr (.inr ⟨by simp [h0, h1], by omega⟩)
  · exact .inr (.inl ⟨_, by simp [h0]; rfl, by decide⟩)

/-- What format F2II can answer: only pc is written, past three cells or to a target that is an address. -/
theorem condJump_cases (taken : Word → Bool) (m0 m1 : ModeDigit) (s : State) :
    (∃ q, condJump taken m0 m1 s = .ok (s.setPc q) ∧ 0 ≤ s.pc.toInt + 1 ∧ 0 ≤ q.toInt) ∨
    (∃ c, condJump taken m0 m1 s = .err c ∧ RaisedInside c) ∨
    (condJump taken m0 m1 s = .stop .noSuchAddress ∧ s.pc.toInt < 0) := by
  unfold condJump
  obtain ⟨n0, h0, h0', -⟩ | ⟨h0, -⟩ := advance_cases s.pc
  · obtain ⟨a, n1, h1, h1', h1''⟩ | ⟨c, h1, hc⟩ | ⟨h1, h1'⟩ := readIn_cases s m0 n0
    · obtain ⟨b, n2, h2, h2', -⟩ | ⟨c, h2, hc⟩ | ⟨h2, h2'⟩ := readIn_cases s m1 n1
      · simp only [h0, h1, h2, Res.bind_ok]
        split
        · obtain ⟨h3, h3'⟩ | ⟨h3, -⟩ := jumpTo_cases s b
          · exact .inl ⟨b, h3, by omega, h3'⟩
          · exact .inr (.inl ⟨_, h3, by decide⟩)
        · exact .inl ⟨n2, fallThrough_eq s b n2, by omega, by omega⟩
      · exact .inr (.inl ⟨c, by simp [h0, h1, h2], hc⟩)
      · exact .inr (.inr ⟨by simp [h0, h1, h2], by omega⟩)
    · exact .inr (.inl ⟨c, by simp [h0, h1], hc⟩)
    · exact .inr (.inr ⟨by simp [h0, h1], by omega⟩)
  · exact .inr (.inl ⟨_, by simp [h0]; rfl, by decide⟩)

/-- What format F1I can answer: the instruction's own effect on the value read, and pc past two cells. -/
theorem oneIn_cases {effect : Word → Res State} (heff : ∀ a, (effect a).clean) (m0 : ModeDigit) (s : State) :
    (∃ a t q, effect a = .ok t ∧ oneIn effect m0 s = .ok (t.setPc q) ∧ 0 ≤ s.pc.toInt + 1 ∧ q.toInt = s.pc.toInt + 2) ∨
    (∃ c, oneIn effect m0 s = .err c ∧ RaisedInside c) ∨
    (oneIn effect m0 s = .stop .noSuchAddress ∧ s.pc.toInt < 0) := by
  unfold oneIn
  obtain ⟨n0, h0, h0', -⟩ | ⟨h0, -⟩ := advance_cases s.pc
  · obtain ⟨a, n1, h1, h1', h1''⟩ | ⟨c, h1, hc⟩ | ⟨h1, h1'⟩ := readIn_cases s m0 n0
    · obtain ⟨t, ht⟩ | ⟨c, ht, hc⟩ := heff a
      · exact .inl ⟨a, t, n1, ht, by simp [h0, h1, ht], by omega, by omega⟩
      · exact .inr (.inl ⟨c, by simp [h0, h1, ht], hc⟩)
    · exact .inr (.inl ⟨c, by simp [h0, h1], hc⟩)
    · exact .inr (.inr ⟨by simp [h0, h1], by omega⟩)
  · exact .inr (.inl ⟨_, by simp [h0]; rfl, by decide⟩)

/-- What format F1O can answer: the instruction's own effect on a target that is an address, and pc past two cells. -/
theorem oneOut_cases {effect : Word → Res State} (heff : ∀ t, (effect t).clean) (m0 : ModeDigit) (s : State) :
    (∃ a t q, effect a = .ok t ∧ 0 ≤ a.toInt ∧ oneOut effect m0 s = .ok (t.setPc q) ∧ 0 ≤ s.pc.toInt + 1 ∧
      q.toInt = s.pc.toInt + 2) ∨
    (∃ c, oneOut effect m0 s = .err c ∧ RaisedInside c) ∨
    (oneOut effect m0 s = .stop .noSuchAddress ∧ s.pc.toInt < 0) := by
  unfold oneOut
  obtain ⟨n0, h0, h0', -⟩ | ⟨h0, -⟩ := advance_cases s.pc
  · obtain ⟨a, n1, h1, ha, h1', h1''⟩ | ⟨c, h1, hc⟩ | ⟨h1, h1'⟩ := resolveOut_cases s m0 n0
    · obtain ⟨t, ht⟩ | ⟨c, ht, hc⟩ := heff a
      · exact .inl ⟨a, t, n1, ht, ha, by simp [h0, h1, ht], by omega, by omega⟩
      · exact .inr (.inl ⟨c, by simp [h0, h1, ht], hc⟩)
    · exact .inr (.inl ⟨c, by simp [h0, h1], hc⟩)
    · exact .inr (.inr ⟨by simp [h0, h1], by omega⟩)
  · exact .inr (.inl ⟨_, by simp [h0]; rfl, by decide⟩)

end Sys2Proof.Machine
end

