-- ==== Sys2Proof/Laws/Step.lean ====
section
/-! SUPPORT. Laws/Step.lean: everything a step can do, said once: what each instruction commits, and that all else is an
error taken or the fault of a state no run reaches. -/

namespace Sys2Proof.Machine

/-- Four cells, one write at the resolved target. -/
def CommitsStore (m2 : ModeDigit) (s t : State) : Prop :=
  ∃ p a q r, resolveOut s m2 p = .ok (a, q) ∧ p.toInt = s.pc.toInt + 3 ∧ q.toInt = s.pc.toInt + 4 ∧ 0 ≤ a.toInt ∧
    t = (s.setMem (memPut s.mem a.toNat r)).setPc q

/-- Only pc, to an address. -/
def CommitsPc (s t : State) : Prop := ∃ q, 0 ≤ q.toInt ∧ t = s.setPc q

/-- What an instruction commits when it raises no error. -/
def Commits (i : Instr) (s t : State) : Prop :=
  match i with
  | .add _ _ m2 => CommitsStore m2 s t
  | .mul _ _ m2 => CommitsStore m2 s t
  | .lt _ _ m2 => CommitsStore m2 s t
  | .eq _ _ m2 => CommitsStore m2 s t
  | .inp _ => ∃ a q, 0 ≤ a.toInt ∧ q.toInt = s.pc.toInt + 2 ∧ t = ((s.setInDest a).setSt .awaitInput).setPc q
  | .out _ => ∃ a q, q.toInt = s.pc.toInt + 2 ∧ t = ((s.setOutVal a).setSt .hasOutput).setPc q
  | .jt _ _ => CommitsPc s t
  | .jf _ _ => CommitsPc s t
  | .arb _ => ∃ v q, q.toInt = s.pc.toInt + 2 ∧ t = (s.setRb v).setPc q
  | .hlt => ∃ q, q.toInt = s.pc.toInt + 1 ∧ t = (s.setSt .halted).setPc q

theorem finish_storing {op : Word → Word → Res Word} (hop : ∀ a b, (op a b).clean) (m0 m1 m2 : ModeDigit) (s : State) :
    (∃ t, finish s (threeParam op m0 m1 m2 s) = .next t ∧ CommitsStore m2 s t) ∨
    (∃ c, RaisedInside c ∧ finish s (threeParam op m0 m1 m2 s) = .next (s.enterError c)) ∨
    (finish s (threeParam op m0 m1 m2 s) = .fault .noSuchAddress ∧ s.pc.toInt < 0) := by
  obtain ⟨p, a, q, r, h1, h2, h3, h4, h5, h⟩ | ⟨c, h, hc⟩ | ⟨h, hp⟩ := threeParam_cases hop m0 m1 m2 s
  · exact .inl ⟨_, by rw [h, finish_ok], ⟨p, a, q, r, h1, h2, h3, h4, rfl⟩⟩
  · exact .inr (.inl ⟨c, hc, by rw [h, finish_err]⟩)
  · exact .inr (.inr ⟨by rw [h, finish_stop], hp⟩)

theorem finish_jump (taken : Word → Bool) (m0 m1 : ModeDigit) (s : State) :
    (∃ t, finish s (condJump taken m0 m1 s) = .next t ∧ CommitsPc s t) ∨
    (∃ c, RaisedInside c ∧ finish s (condJump taken m0 m1 s) = .next (s.enterError c)) ∨
    (finish s (condJump taken m0 m1 s) = .fault .noSuchAddress ∧ s.pc.toInt < 0) := by
  obtain ⟨q, h, h1, h2⟩ | ⟨c, h, hc⟩ | ⟨h, hp⟩ := condJump_cases taken m0 m1 s
  · exact .inl ⟨_, by rw [h, finish_ok], ⟨q, h2, rfl⟩⟩
  · exact .inr (.inl ⟨c, hc, by rw [h, finish_err]⟩)
  · exact .inr (.inr ⟨by rw [h, finish_stop], hp⟩)

/-- `exec` commits what the instruction commits, or takes an error with a cause, or faults at a negative pc. -/
theorem exec_cases (i : Instr) (s : State) :
    (∃ t, exec i s = .next t ∧ Commits i s t) ∨
    (∃ c, RaisedInside c ∧ exec i s = .next (s.enterError c)) ∨
    (exec i s = .fault .noSuchAddress ∧ s.pc.toInt < 0) := by
  cases i with
  | add m0 m1 m2 => exact finish_storing (fun _ _ => fit_clean _) m0 m1 m2 s
  | mul m0 m1 m2 => exact finish_storing (fun _ _ => fit_clean _) m0 m1 m2 s
  | lt m0 m1 m2 => exact finish_storing (fun _ _ => ok_clean _) m0 m1 m2 s
  | eq m0 m1 m2 => exact finish_storing (fun _ _ => ok_clean _) m0 m1 m2 s
  | jt m0 m1 => exact finish_jump _ m0 m1 s
  | jf m0 m1 => exact finish_jump _ m0 m1 s
  | inp m0 =>
    simp only [exec, execIn]
    obtain ⟨a, t, q, h1, h2, h, h3, h4⟩ | ⟨c, h, hc⟩ | ⟨h, hp⟩ :=
      oneOut_cases (effect := fun t => .ok ((s.setInDest t).setSt .awaitInput)) (fun _ => ok_clean _) m0 s
    · cases h1
      exact .inl ⟨_, by rw [h, finish_ok], ⟨a, q, h2, h4, rfl⟩⟩
    · exact .inr (.inl ⟨c, hc, by rw [h, finish_err]⟩)
    · exact .inr (.inr ⟨by rw [h, finish_stop], hp⟩)
  | out m0 =>
    simp only [exec, execOut]
    obtain ⟨a, t, q, h1, h, h3, h4⟩ | ⟨c, h, hc⟩ | ⟨h, hp⟩ :=
      oneIn_cases (effect := fun a => .ok ((s.setOutVal a).setSt .hasOutput)) (fun _ => ok_clean _) m0 s
    · cases h1
      exact .inl ⟨_, by rw [h, finish_ok], ⟨a, q, h4, rfl⟩⟩
    · exact .inr (.inl ⟨c, hc, by rw [h, finish_err]⟩)
    · exact .inr (.inr ⟨by rw [h, finish_stop], hp⟩)
  | arb m0 =>
    simp only [exec, execArb]
    have hcl : ∀ a : Word, Res.clean ((fit (s.rb.toInt + a.toInt)).bind fun v => Res.ok (s.setRb v)) := by
      intro a
      obtain ⟨w, hw, -⟩ | ⟨hw, -⟩ := fit_cases (s.rb.toInt + a.toInt)
      · exact .inl ⟨s.setRb w, by rw [hw, Res.bind_ok]⟩
      · exact .inr ⟨_, by rw [hw, Res.bind_err], by decide⟩
    obtain ⟨a, t, q, h1, h, h3, h4⟩ | ⟨c, h, hc⟩ | ⟨h, hp⟩ := oneIn_cases hcl m0 s
    · obtain ⟨v, -, h5⟩ := Res.bind_eq_ok.1 h1
      cases h5
      exact .inl ⟨_, by rw [h, finish_ok], ⟨v, q, h4, rfl⟩⟩
    · exact .inr (.inl ⟨c, hc, by rw [h, finish_err]⟩)
    · exact .inr (.inr ⟨by rw [h, finish_stop], hp⟩)
  | hlt =>
    simp only [exec, execHlt]
    obtain ⟨q, h1, h2, -⟩ | ⟨h1, h2⟩ := advance_cases s.pc
    · exact .inl ⟨_, by rw [h1, Res.bind_ok, finish_ok], ⟨q, h2, rfl⟩⟩
    · exact .inr (.inl ⟨.arithmeticOverflow, by decide, by rw [h1, Res.bind_err, finish_err]⟩)

end Sys2Proof.Machine
end

