-- ==== Sys2Proof/Laws/Claims.lean ====
section
/-! SUPPORT. Laws/Claims.lean: the words of Safety.lean against the meanings: what a parameter at its place resolves to,
and what one transition does when the core or the host moves. -/

namespace Sys2Proof.Machine

variable {s : State} {d : ModeDigit} {p : Word}

/-- A pointer that stands n cells after an address, as a natural number. -/
theorem toNat_of_offset {p q : Word} {n : Nat} (hq : 0 ≤ q.toInt) (h : p.toInt = q.toInt + n) : p.toNat = q.toNat + n := by
  have h1 := toNat_of_nonneg hq
  have h2 := toNat_of_nonneg (w := p) (by omega)
  omega

/-- The address pc + n is the word of the exact sum. -/
theorem pcPlus_eq (s : State) (n : Nat) : s.pcPlus n = BitVec.ofInt Config.W (s.pc.toInt + n) := by
  rw [BitVec.ofInt_add, BitVec.ofInt_toInt, BitVec.ofInt_natCast]
  rfl

/-- The address pc + n, where it does not pass ADDR_MAX. -/
theorem pcPlus_toInt {n : Nat} (h : s.cellsFit n) : (s.pcPlus n).toInt = s.pc.toInt + n := by
  have h0 : Config.minW ≤ 0 := by decide
  obtain ⟨h1, h2⟩ := h
  rw [pcPlus_eq, toInt_ofInt (by omega) h2]

/-- A pointer whose integer is pc + n is the address pc + n. -/
theorem eq_pcPlus {n : Nat} (hp : p.toInt = s.pc.toInt + n) : p = s.pcPlus n := by
  rw [pcPlus_eq, ← hp, BitVec.ofInt_toInt]

/-- The cell under a running pointer that stands on parameter `k`. -/
theorem cell_is_param {k : Nat} (h0 : 0 ≤ s.pc.toInt) (hp : p.toInt = s.pc.toInt + 1 + k) :
    memGet s.mem p.toNat = s.param k := by
  rw [State.param, toNat_of_offset (q := s.pc) (n := 1 + k) h0 (by push_cast; omega)]
  congr 1
  omega

/-- Reading parameter `k`'s cell. -/
theorem readParam_at {k : Nat} (h0 : 0 ≤ s.pc.toInt) (hp : p.toInt = s.pc.toInt + 1 + k) :
    readParam s p = if s.pc.toInt + 1 + k = Config.maxW then .err .arithmeticOverflow else .ok (s.param k, p + 1) := by
  have hle := toInt_inRange p
  unfold readParam
  rw [readCell_ok (by omega), cell_is_param h0 hp, Res.bind_ok]
  split
  · rw [advance_err (by omega), Res.bind_err]
  · rw [advance_ok (by omega), Res.bind_ok]

/-- A sum that fits and is not negative, as an address. -/
theorem relativeAddress_ok {raw : Word} (h : 0 ≤ s.rb.toInt + raw.toInt) (h' : s.rb.toInt + raw.toInt ≤ Config.maxW) :
    relativeAddress s raw = .ok (BitVec.ofInt Config.W (s.rb.toInt + raw.toInt)) := by
  have hmin : Config.minW ≤ s.rb.toInt + raw.toInt := le_trans (by decide) h
  unfold relativeAddress checkAddress
  rw [fit_ok hmin h', Res.bind_ok, if_neg (by rw [toInt_ofInt hmin h']; omega)]

/-- The first of a list of errors, or the answer where there is none. -/
def raiseFirst {α : Type} (l : List ErrCause) (r : Res α) : Res α :=
  match l with
  | c :: _ => .err c
  | [] => r

@[simp] theorem raiseFirst_nil {α : Type} (r : Res α) : raiseFirst [] r = r := rfl

theorem raiseFirst_errorIf {α : Type} (P : Prop) [Decidable P] (c : ErrCause) (r : Res α) :
    raiseFirst (errorIf P c) r = if P then .err c else r := by
  unfold errorIf
  split <;> rfl

theorem raiseFirst_append {α : Type} (l l' : List ErrCause) (r : Res α) :
    raiseFirst (l ++ l') r = raiseFirst l (raiseFirst l' r) := by
  cases l <;> rfl

theorem raiseFirst_bind {α β : Type} (l : List ErrCause) (r : Res α) (f : α → Res β) :
    (raiseFirst l r).bind f = raiseFirst l (r.bind f) := by
  cases l <;> rfl

/-- A value under a list of errors means that the list is empty. -/
theorem raiseFirst_eq_ok {α : Type} {l : List ErrCause} {r : Res α} {a : α} :
    raiseFirst l r = .ok a ↔ l = [] ∧ r = .ok a := by
  cases l <;> simp [raiseFirst]

/-- `ReadIn(k)` at its place: the first of the parameter's errors, or its value with the pointer past its cell. -/
theorem readIn_at {k : Nat} (h0 : 0 ≤ s.pc.toInt) (hp : p.toInt = s.pc.toInt + 1 + k) :
    readIn s d p = raiseFirst (s.inErrors k d) (.ok (s.inValue d (s.param k), p + 1)) := by
  unfold readIn State.inErrors State.addressErrors State.inValue State.ea
  simp only [raiseFirst_append, raiseFirst_errorIf]
  obtain ⟨hm, hd⟩ | ⟨hm, hd⟩ | ⟨hm, hd⟩ | ⟨hm, hd⟩ := modeOf_cases d
  · simp only [hm, hd, readParam_at h0 hp]
    by_cases h1 : s.pc.toInt + 1 + k = Config.maxW
    · simp [h1]
    · obtain ⟨h3, h4⟩ | ⟨h3, h4⟩ := checkAddress_cases (s.param k)
      · have h5 : (s.param k).toInt.toNat = (s.param k).toNat := by have := toNat_of_nonneg h4; omega
        simp [h1, h3, readCell_ok h4, not_lt.2 h4, h5]
      · simp [h1, h3, h4]
  · simp only [hm, hd, readParam_at h0 hp]
    simp
  · simp only [hm, hd, readParam_at h0 hp]
    by_cases h1 : s.pc.toInt + 1 + k = Config.maxW
    · simp [h1]
    · obtain ⟨ea, h3, h4, h5⟩ | ⟨h3, h4, h5⟩ | ⟨h3, h4⟩ := relativeAddress_cases s (s.param k)
      · have h6 := toInt_inRange ea
        have h7 : (s.rb.toInt + (s.param k).toInt).toNat = ea.toNat := by have := toNat_of_nonneg h5; omega
        rw [h4] at h5 h6
        simp [h1, h3, readCell_ok (h4 ▸ h5 : 0 ≤ ea.toInt), h6, not_lt.2 h5, h7]
      · have h6 : s.rb.toInt + (s.param k).toInt ≤ Config.maxW := le_trans h4.le (by decide)
        simp [h1, h3, h4, h5, h6]
      · simp [h1, h3, h4]
  · simp [hm, hd]

/-- `ResolveOut(k)` at its place: the first of the parameter's errors, or its target with the pointer past its cell. -/
theorem resolveOut_at {k : Nat} (h0 : 0 ≤ s.pc.toInt) (hp : p.toInt = s.pc.toInt + 1 + k) :
    resolveOut s d p =
      raiseFirst (s.outErrors k d) (.ok (BitVec.ofInt Config.W (s.ea d (s.param k)), p + 1)) := by
  unfold resolveOut State.outErrors State.addressErrors State.ea
  simp only [raiseFirst_append, raiseFirst_errorIf]
  obtain ⟨hm, hd⟩ | ⟨hm, hd⟩ | ⟨hm, hd⟩ | ⟨hm, hd⟩ := modeOf_cases d
  · simp only [hm, hd, readParam_at h0 hp]
    by_cases h1 : s.pc.toInt + 1 + k = Config.maxW
    · simp [h1]
    · obtain ⟨h3, h4⟩ | ⟨h3, h4⟩ := checkAddress_cases (s.param k)
      · simp [h1, h3, not_lt.2 h4]
      · simp [h1, h3, h4]
  · simp [hm, hd]
  · simp only [hm, hd, readParam_at h0 hp]
    by_cases h1 : s.pc.toInt + 1 + k = Config.maxW
    · simp [h1]
    · obtain ⟨ea, h3, h4, h5⟩ | ⟨h3, h4, h5⟩ | ⟨h3, h4⟩ := relativeAddress_cases s (s.param k)
      · have h6 := toInt_inRange ea
        have h7 : ea = BitVec.ofInt Config.W (s.rb.toInt + (s.param k).toInt) := by rw [← h4, BitVec.ofInt_toInt]
        rw [h4] at h5 h6
        simp [h1, h3, h6, not_lt.2 h5, ← h7]
      · have h6 : s.rb.toInt + (s.param k).toInt ≤ Config.maxW := le_trans h4.le (by decide)
        simp [h1, h3, h4, h5, h6]
      · simp [h1, h3, h4]
  · simp [hm, hd]

/-- The pointer past the word, or the overflow of the fetch. -/
theorem advance_at (s : State) :
    advance s.pc = raiseFirst (errorIf (s.pc.toInt = Config.maxW) .arithmeticOverflow) (.ok (s.pc + 1)) := by
  have := toInt_inRange s.pc
  rw [raiseFirst_errorIf]
  split
  · exact advance_err ‹_›
  · exact advance_ok (by omega)

theorem errorIf_eq_nil {P : Prop} [Decidable P] {c : ErrCause} : errorIf P c = [] ↔ ¬ P := by
  unfold errorIf
  split <;> simp_all

/-- A Position parameter's address is its raw value, which lies in Int_W. -/
theorem ea_inRange {raw : Word} (h : d.val ≠ 2) : Config.minW ≤ s.ea d raw ∧ s.ea d raw ≤ Config.maxW := by
  rw [State.ea, if_neg h]
  exact toInt_inRange raw

/-- An input parameter has no error exactly when its cell is passed and it can be resolved. -/
theorem inErrors_eq_nil {k : Nat} :
    s.inErrors k d = [] ↔ s.pc.toInt + 1 + k ≠ Config.maxW ∧ s.readable d (s.param k) := by
  have hm := d.isLt
  have h1 := ea_inRange (s := s) (d := d) (raw := s.param k)
  have h2 : Config.minW ≤ 0 := by decide
  simp only [State.inErrors, State.addressErrors, List.append_eq_nil_iff, errorIf_eq_nil, State.readable, State.writable]
  omega

/-- An output parameter has no error exactly when its cell is passed and it designates an address. -/
theorem outErrors_eq_nil {k : Nat} :
    s.outErrors k d = [] ↔ s.pc.toInt + 1 + k ≠ Config.maxW ∧ s.writable d (s.param k) := by
  have hm := d.isLt
  have h1 := ea_inRange (s := s) (d := d) (raw := s.param k)
  have h2 : Config.minW ≤ 0 := by decide
  simp only [State.outErrors, State.addressErrors, List.append_eq_nil_iff, errorIf_eq_nil, State.writable]
  omega

theorem resultErrors_eq_nil {v : Int} : resultErrors v = [] ↔ inRange v := by
  simp [resultErrors, errorIf_eq_nil, inRange]

/-- `fit` is its errors, or the value. -/
theorem fit_at (v : Int) : fit v = raiseFirst (resultErrors v) (.ok (BitVec.ofInt Config.W v)) := by
  rw [resultErrors, raiseFirst_errorIf]
  by_cases h : Config.minW ≤ v ∧ v ≤ Config.maxW
  · rw [if_neg (not_not.2 h), fit_ok h.1 h.2]
  · rw [if_pos h, fit_err h]

/-- Two answers under one list of errors agree where the list is empty. -/
theorem raiseFirst_congr {α : Type} {l : List ErrCause} {r r' : Res α} (h : l = [] → r = r') :
    raiseFirst l r = raiseFirst l r' := by
  cases l with
  | nil => exact h rfl
  | cons c l => rfl

theorem toInt_add_one (h : p.toInt ≠ Config.maxW) : (p + 1).toInt = p.toInt + 1 := by
  have h1 := toInt_inRange p
  obtain ⟨q, h2, h3, -⟩ | ⟨-, h2⟩ := advance_cases p
  · rw [advance_ok (by omega)] at h2
    cases h2
    exact h3
  · exact absurd h2 h

/-- The two inputs of a format that has them, at their places. -/
theorem twoInputs_at {α : Type} (h0 : 0 ≤ s.pc.toInt) (m0 m1 : ModeDigit) (f : Word → Word → Word → Res α) :
    ((advance s.pc).bind fun n0 => (readIn s m0 n0).bind fun a => (readIn s m1 a.2).bind fun b => f a.1 b.1 b.2) =
      raiseFirst (errorIf (s.pc.toInt = Config.maxW) .arithmeticOverflow ++ s.inErrors 0 m0 ++ s.inErrors 1 m1)
        (f (s.inValue m0 (s.param 0)) (s.inValue m1 (s.param 1)) (s.pc + 1 + 1 + 1)) := by
  rw [advance_at, raiseFirst_bind, raiseFirst_append, raiseFirst_append]
  refine raiseFirst_congr fun h => ?_
  have h1 := toInt_add_one (errorIf_eq_nil.1 h)
  rw [Res.bind_ok, readIn_at (k := 0) h0 (by omega), raiseFirst_bind]
  refine raiseFirst_congr fun h => ?_
  have h2 := toInt_add_one (p := s.pc + 1) (by have := (inErrors_eq_nil.1 h).1; push_cast at this; omega)
  rw [Res.bind_ok, readIn_at (k := 1) h0 (by rw [h2, h1]; push_cast; omega), raiseFirst_bind, Res.bind_ok]

theorem pc_add_three (s : State) : s.pc + 1 + 1 + 1 = s.pcPlus 3 := by
  simp only [State.pcPlus, BitVec.add_assoc]
  rfl

theorem pc_add_four (s : State) : s.pc + 1 + 1 + 1 + 1 = s.pcPlus 4 := by
  simp only [State.pcPlus, BitVec.add_assoc]
  rfl

theorem pc_add_two (s : State) : s.pc + 1 + 1 = s.pcPlus 2 := by
  simp only [State.pcPlus, BitVec.add_assoc]
  rfl

/-- Format F3IIO: the first error of the fetch and the three parameters, or the operation's answer written at the target. -/
theorem threeParam_at (h0 : 0 ≤ s.pc.toInt) (op : Word → Word → Res Word) (m0 m1 m2 : ModeDigit) :
    threeParam op m0 m1 m2 s =
      raiseFirst (errorIf (s.pc.toInt = Config.maxW) .arithmeticOverflow ++ s.inErrors 0 m0 ++ s.inErrors 1 m1 ++
          s.outErrors 2 m2)
        ((op (s.inValue m0 (s.param 0)) (s.inValue m1 (s.param 1))).bind fun r =>
          .ok ((s.setMem (memPut s.mem (s.ea m2 (s.param 2)).toNat r)).setPc (s.pcPlus 4))) := by
  unfold threeParam
  rw [twoInputs_at h0 m0 m1 fun a b n => (resolveOut s m2 n).bind fun t => (op a b).bind fun r =>
    (writeCell s t.1 r).bind fun s' => .ok (s'.setPc t.2), raiseFirst_append _ (s.outErrors 2 m2)]
  refine raiseFirst_congr fun h => ?_
  simp only [List.append_eq_nil_iff, errorIf_eq_nil, inErrors_eq_nil] at h
  obtain ⟨⟨h1, h2, -⟩, h3, -⟩ := h
  push_cast at h2 h3
  have e1 := toInt_add_one h1
  have e2 := toInt_add_one (p := s.pc + 1) (by omega)
  have e3 := toInt_add_one (p := s.pc + 1 + 1) (by omega)
  rw [resolveOut_at (k := 2) h0 (by rw [e3, e2, e1]; push_cast; omega), raiseFirst_bind, Res.bind_ok]
  refine raiseFirst_congr fun h => ?_
  obtain ⟨-, -, h4, h5⟩ := outErrors_eq_nil.1 h
  have e4 := toInt_ofInt (le_trans (by decide) h4) h5
  have e5 : 0 ≤ (BitVec.ofInt Config.W (s.ea m2 (s.param 2))).toInt := by rw [e4]; exact h4
  have e6 : (BitVec.ofInt Config.W (s.ea m2 (s.param 2))).toNat = (s.ea m2 (s.param 2)).toNat := by
    have := toNat_of_nonneg e5
    omega
  congr 1
  funext r
  rw [writeCell_ok e5, Res.bind_ok, e6, pc_add_four]

/-- Format F2II: the first error of the fetch and the two parameters, or the jump. -/
theorem condJump_at (h0 : 0 ≤ s.pc.toInt) (taken : Word → Bool) (m0 m1 : ModeDigit) :
    condJump taken m0 m1 s =
      raiseFirst (errorIf (s.pc.toInt = Config.maxW) .arithmeticOverflow ++ s.inErrors 0 m0 ++ s.inErrors 1 m1)
        (if taken (s.inValue m0 (s.param 0)) then jumpTo s (s.inValue m1 (s.param 1)) else .ok (s.setPc (s.pcPlus 3))) := by
  unfold condJump
  rw [twoInputs_at h0 m0 m1 fun a b n => if taken a then jumpTo s b else fallThrough s b n, pc_add_three, fallThrough_eq]

/-- Format F1I: the first error of the fetch and the parameter, or the instruction's effect on its value. -/
theorem oneIn_at (h0 : 0 ≤ s.pc.toInt) (effect : Word → Res State) (m0 : ModeDigit) :
    oneIn effect m0 s =
      raiseFirst (errorIf (s.pc.toInt = Config.maxW) .arithmeticOverflow ++ s.inErrors 0 m0)
        ((effect (s.inValue m0 (s.param 0))).bind fun t => .ok (t.setPc (s.pcPlus 2))) := by
  unfold oneIn
  rw [advance_at, raiseFirst_bind, raiseFirst_append]
  refine raiseFirst_congr fun h => ?_
  have h1 := toInt_add_one (errorIf_eq_nil.1 h)
  rw [Res.bind_ok, readIn_at (k := 0) h0 (by omega), raiseFirst_bind, Res.bind_ok, pc_add_two]

/-- Format F1O: the first error of the fetch and the parameter, or the instruction's effect on its target. -/
theorem oneOut_at (h0 : 0 ≤ s.pc.toInt) (effect : Word → Res State) (m0 : ModeDigit) :
    oneOut effect m0 s =
      raiseFirst (errorIf (s.pc.toInt = Config.maxW) .arithmeticOverflow ++ s.outErrors 0 m0)
        ((effect (BitVec.ofInt Config.W (s.ea m0 (s.param 0)))).bind fun t => .ok (t.setPc (s.pcPlus 2))) := by
  unfold oneOut
  rw [advance_at, raiseFirst_bind, raiseFirst_append]
  refine raiseFirst_congr fun h => ?_
  have h1 := toInt_add_one (errorIf_eq_nil.1 h)
  rw [Res.bind_ok, resolveOut_at (k := 0) h0 (by omega), raiseFirst_bind, Res.bind_ok, pc_add_two]

/-- The core's step in RUNNING at an address: the overflow of the fetch, InvalidOpcode, or the instruction. -/
theorem runStep_at (h0 : 0 ≤ s.pc.toInt) :
    runStep s =
      if s.pc.toInt = Config.maxW then .next (s.enterError .arithmeticOverflow)
      else match decode s.word with
        | .instr i => exec i s
        | .refused _ => .next (s.enterError .invalidOpcode) := by
  unfold runStep fetchDecode State.word
  rw [readCell_ok h0, Res.bind_ok, advance_at, raiseFirst_bind, raiseFirst_errorIf]
  by_cases h : s.pc.toInt = Config.maxW
  · simp only [if_pos h]
  · simp only [if_neg h, Res.bind_ok]
    cases decode (memGet s.mem s.pc.toNat) <;> rfl

/-- At ADDR_MAX every instruction overflows like the fetch. -/
theorem exec_at_addrMax (i : Instr) (h : s.pc.toInt = Config.maxW) : exec i s = .next (s.enterError .arithmeticOverflow) := by
  have ha := advance_err h
  cases i <;> simp [exec, execAdd, execMul, execIn, execOut, execJt, execJf, execLt, execEq, execArb, execHlt, threeParam,
    condJump, oneIn, oneOut, ha]

/-- The words of Safety.lean for who moves, against `nextMove`. -/
theorem nextMove_cases (s : State) :
    (s.hostEvent = none ∧ (s.st = .running → s.setHost (nextMove s).2 = s.onItsTurn) ∧
      (s.st ≠ .running → (nextMove s).1 = none ∧ s.setHost (nextMove s).2 = s.moveUsed) ∧
      ∀ e, (nextMove s).1 = some e → s.st = .running ∧ e ≠ .rst) ∨
    (∃ e, s.hostEvent = some e ∧ (s.st = .running → e = .rst) ∧ (nextMove s).1 = some e ∧
      s.setHost (nextMove s).2 = s.moveUsed) := by
  unfold nextMove State.hostEvent State.onItsTurn State.moveUsed
  rcases hh : s.host with _ | ⟨m, r⟩
  · have : s.setHost [] = s := by rw [← hh]; rfl
    simp [this]
  · cases m with
    | pass => simp
    | now e =>
      by_cases h : s.st = .running ∧ e ≠ .rst
      · simp [h]
      · rw [not_and, not_not] at h
        exact .inr ⟨e, by simp_all, h, by simp, by simp⟩
    | whenStopped e =>
      by_cases h : s.st = .running
      · have : s.setHost (.whenStopped e :: r) = s := by rw [← hh]; rfl
        simp [h, this]
      · simp [h]

/-- When the core is RUNNING and no event of the host has a move, the step is the core's. -/
theorem step_running (hst : s.st = .running) (hev : s.hostEvent = none) : step s = runStep s.onItsTurn := by
  obtain ⟨-, h1, -, h2⟩ | ⟨e, h, -⟩ := nextMove_cases s
  · have h3 : s.onItsTurn.st = .running := by rw [← h1 hst]; exact hst
    unfold step transition transitionOn
    rw [h1 hst]
    split
    · simp [coreTurn, h3]
    · obtain ⟨-, h4⟩ := h2 _ ‹_›
      simp [coreTurn, h3, h4]
  · simp [h] at hev

/-- Everything the core's step in RUNNING can answer with a next state: the decoded instruction's, or an error taken. -/
theorem step_running_cases {t : State} (hst : s.st = .running) (hev : s.hostEvent = none) (h : step s = .next t) :
    (∃ i, decode s.word = .instr i ∧ exec i s.onItsTurn = .next t) ∨ ∃ c, c ≠ .none ∧ t = s.onItsTurn.enterError c := by
  have hw : s.onItsTurn.word = s.word := by unfold State.onItsTurn; split <;> rfl
  rw [step_running hst hev] at h
  by_cases h0 : 0 ≤ s.onItsTurn.pc.toInt
  · rw [runStep_at h0, hw] at h
    split at h
    · cases h
      exact .inr ⟨_, by decide, rfl⟩
    · split at h
      · exact .inl ⟨_, ‹_›, h⟩
      · cases h
        exact .inr ⟨_, by decide, rfl⟩
  · simp [runStep, fetchDecode, readCell_stop (not_le.1 h0)] at h

/-- When an event of the host has a move, the step is that event. -/
theorem step_event {e : HostEvent} (hev : s.hostEvent = some e) : step s = onEvent e s.moveUsed := by
  obtain ⟨h, -⟩ | ⟨e', h, hr, h1, h2⟩ := nextMove_cases s
  · simp [h] at hev
  · obtain rfl : e' = e := by simpa [h] using hev
    have h3 : ¬(s.moveUsed.st = .running ∧ e' ≠ .rst) := fun h4 => h4.2 (hr h4.1)
    unfold step transition transitionOn
    rw [h1, h2]
    simp only [if_neg h3]

/-- In RUNNING the host's only event is the reset. -/
theorem hostEvent_running {e : HostEvent} (hst : s.st = .running) (hev : s.hostEvent = some e) : e = .rst := by
  obtain ⟨h, -⟩ | ⟨e', h, hr, -⟩ := nextMove_cases s
  · simp [h] at hev
  · obtain rfl : e' = e := by simpa [h] using hev
    exact hr hst

/-- When neither moves, nothing but the host's `pass` is used up. -/
theorem step_waiting (hst : s.st ≠ .running) (hev : s.hostEvent = none) : step s = .next s.moveUsed := by
  obtain ⟨-, -, h, -⟩ | ⟨e, h, -⟩ := nextMove_cases s
  · obtain ⟨h1, h2⟩ := h hst
    have h3 : s.moveUsed.st ≠ .running := hst
    unfold step transition transitionOn
    rw [h1, h2]
    simp only [coreTurn, if_neg h3]
  · simp [h] at hev

@[simp] theorem onItsTurn_pc (s : State) : s.onItsTurn.pc = s.pc := by unfold State.onItsTurn; split <;> rfl
@[simp] theorem onItsTurn_rb (s : State) : s.onItsTurn.rb = s.rb := by unfold State.onItsTurn; split <;> rfl
@[simp] theorem onItsTurn_st (s : State) : s.onItsTurn.st = s.st := by unfold State.onItsTurn; split <;> rfl
@[simp] theorem onItsTurn_inDest (s : State) : s.onItsTurn.inDest = s.inDest := by unfold State.onItsTurn; split <;> rfl
@[simp] theorem onItsTurn_outVal (s : State) : s.onItsTurn.outVal = s.outVal := by unfold State.onItsTurn; split <;> rfl
@[simp] theorem onItsTurn_errCause (s : State) : s.onItsTurn.errCause = s.errCause := by
  unfold State.onItsTurn; split <;> rfl
@[simp] theorem onItsTurn_errPc (s : State) : s.onItsTurn.errPc = s.errPc := by unfold State.onItsTurn; split <;> rfl
@[simp] theorem onItsTurn_mem (s : State) : s.onItsTurn.mem = s.mem := by unfold State.onItsTurn; split <;> rfl
@[simp] theorem onItsTurn_draws (s : State) : s.onItsTurn.draws = s.draws := by unfold State.onItsTurn; split <;> rfl

/-- What an event of the host can do to a state whose in_dest is an address while it waits for input, said once. -/
theorem onEvent_cases (e : HostEvent) (s : State) :
    (e = .rst ∧ onEvent e s = .next (onReset s)) ∨
    (e = .run ∧ s.st = .idle ∧ onEvent e s = .next (s.setSt .running)) ∨
    (∃ v, e = .resume v ∧ s.st = .awaitInput ∧ 0 ≤ s.inDest.toInt ∧
      onEvent e s = .next (((s.setMem (memPut s.mem s.inDest.toNat v)).forgetInDest).setSt .running)) ∨
    (∃ v, e = .resume v ∧ s.st = .awaitInput ∧ s.inDest.toInt < 0 ∧ onEvent e s = .fault .noSuchAddress) ∨
    (∃ v, e = .resume v ∧ s.st = .hasOutput ∧ onEvent e s = .next (s.forgetOutVal.setSt .running)) ∨
    (∃ a v, e = .poke a v ∧ s.st = .idle ∧ 0 ≤ a.toInt ∧ onEvent e s = .next (s.setMem (memPut s.mem a.toNat v))) ∨
    (∃ cells, e = .load cells ∧ s.st = .idle ∧ onEvent e s = .next (s.setMem (placeCells 0 cells []))) ∨
    onEvent e s = .next s := by
  cases e with
  | rst => exact .inl ⟨rfl, rfl⟩
  | run =>
    by_cases h : s.st = .idle
    · exact .inr (.inl ⟨rfl, h, by simp [onEvent, onRun, h]⟩)
    · simp [onEvent, onRun, h]
  | resume v =>
    cases h : s.st with
    | awaitInput =>
      by_cases hd : 0 ≤ s.inDest.toInt
      · exact .inr (.inr (.inl ⟨v, rfl, h.symm ▸ rfl, hd, by simp [onEvent, onResume, h, resumeInput, writeCell_ok hd]⟩))
      · exact .inr (.inr (.inr (.inl ⟨v, rfl, h.symm ▸ rfl, not_le.1 hd,
          by simp [onEvent, onResume, h, resumeInput, writeCell_stop (not_le.1 hd)]⟩)))
    | hasOutput => exact .inr (.inr (.inr (.inr (.inl ⟨v, rfl, rfl, by simp [onEvent, onResume, h, resumeOutput]⟩))))
    | idle => simp [onEvent, onResume, h]
    | running => simp [onEvent, onResume, h]
    | halted => simp [onEvent, onResume, h]
    | error => simp [onEvent, onResume, h]
  | poke a v =>
    by_cases h : s.st = .idle ∧ 0 ≤ a.toInt
    · exact .inr (.inr (.inr (.inr (.inr (.inl ⟨a, v, rfl, h.1, h.2, by simp [onEvent, onPoke, h]⟩)))))
    · simp [onEvent, onPoke, h]
  | load cells =>
    by_cases h : s.st = .idle
    · exact .inr (.inr (.inr (.inr (.inr (.inr (.inl ⟨cells, rfl, h, by simp [onEvent, onLoad, h]⟩))))))
    · simp [onEvent, onLoad, h]

end Sys2Proof.Machine
end

