-- ==== Sys2Proof/Laws/PerInstr.lean ====
section
/-! SUPPORT. Laws/PerInstr.lean: one lemma for each instruction about its canonical word (30_encoding.md R61). -/

namespace Sys2Proof.Laws

/-- The canonical word of a well-formed instruction is at most 22208, its two low digits are the code, and the cell
holds it unchanged (30_encoding.md R61). -/
def CanonicalWord.Statement (i : Instr) : Prop :=
  i.wf = true → i.wordValue ≤ 22208 ∧ i.wordValue % 100 = i.code ∧ (encode i).toNat = i.wordValue

/-- A canonical word value fits the cell. -/
theorem encode_toNat {i : Instr} (h : i.wordValue ≤ 22208) : (encode i).toNat = i.wordValue := by
  rw [encode, BitVec.toNat_ofNat]
  exact Nat.mod_eq_of_lt (lt_of_le_of_lt h (by decide))

theorem CanonicalWord.three {i : Instr} {m0 m1 m2 : ModeDigit} (hd : i.digits = [m0, m1, m2]) (hc : i.code ≤ 8)
    (hw : i.wf = (legalIn m0 && legalIn m1 && legalOut m2)) : CanonicalWord.Statement i := by
  intro h
  simp only [hw, legalIn, legalOut, Bool.and_eq_true, Bool.or_eq_true, decide_eq_true_eq] at h
  have hv : i.wordValue = i.code + 100 * (m0.val + 10 * (m1.val + 10 * (m2.val + 10 * 0))) := by
    rw [Instr.wordValue, hd]; rfl
  have hb : i.wordValue ≤ 22208 := by omega
  exact ⟨hb, by omega, encode_toNat hb⟩

theorem CanonicalWord.two {i : Instr} {m0 m1 : ModeDigit} (hd : i.digits = [m0, m1]) (hc : i.code ≤ 8)
    (hw : i.wf = (legalIn m0 && legalIn m1)) : CanonicalWord.Statement i := by
  intro h
  simp only [hw, legalIn, Bool.and_eq_true, decide_eq_true_eq] at h
  have hv : i.wordValue = i.code + 100 * (m0.val + 10 * (m1.val + 10 * 0)) := by
    rw [Instr.wordValue, hd]; rfl
  have hb : i.wordValue ≤ 22208 := by omega
  exact ⟨hb, by omega, encode_toNat hb⟩

theorem CanonicalWord.one {i : Instr} {m0 : ModeDigit} (hd : i.digits = [m0]) (hc : i.code ≤ 9) :
    CanonicalWord.Statement i := by
  intro _
  have hv : i.wordValue = i.code + 100 * (m0.val + 10 * 0) := by
    rw [Instr.wordValue, hd]; rfl
  have hb : i.wordValue ≤ 22208 := by omega
  exact ⟨hb, by omega, encode_toNat hb⟩

theorem CanonicalWord.add (m0 m1 m2 : ModeDigit) : CanonicalWord.Statement (.add m0 m1 m2) := three rfl (by simp [Instr.code]) rfl
theorem CanonicalWord.mul (m0 m1 m2 : ModeDigit) : CanonicalWord.Statement (.mul m0 m1 m2) := three rfl (by simp [Instr.code]) rfl
theorem CanonicalWord.inp (m0 : ModeDigit) : CanonicalWord.Statement (.inp m0) := one rfl (by simp [Instr.code])
theorem CanonicalWord.out (m0 : ModeDigit) : CanonicalWord.Statement (.out m0) := one rfl (by simp [Instr.code])
theorem CanonicalWord.jt (m0 m1 : ModeDigit) : CanonicalWord.Statement (.jt m0 m1) := two rfl (by simp [Instr.code]) rfl
theorem CanonicalWord.jf (m0 m1 : ModeDigit) : CanonicalWord.Statement (.jf m0 m1) := two rfl (by simp [Instr.code]) rfl
theorem CanonicalWord.lt (m0 m1 m2 : ModeDigit) : CanonicalWord.Statement (.lt m0 m1 m2) := three rfl (by simp [Instr.code]) rfl
theorem CanonicalWord.eq (m0 m1 m2 : ModeDigit) : CanonicalWord.Statement (.eq m0 m1 m2) := three rfl (by simp [Instr.code]) rfl
theorem CanonicalWord.arb (m0 : ModeDigit) : CanonicalWord.Statement (.arb m0) := one rfl (by simp [Instr.code])
theorem CanonicalWord.hlt : CanonicalWord.Statement .hlt := fun _ => ⟨by decide, by decide, by decide⟩

end Sys2Proof.Laws
end

