-- ==== Sys2Proof/Tests/Slice0.lean ====
section
/-! SUPPORT. Tests/Slice0.lean: small tests whose expected results come from spec/ (95_test_vectors.md and the worked
examples of the rules), and for every obligation with hypotheses a state that meets them, each clause at a boundary. -/

namespace Sys2Proof.Tests

open Sys2Proof.Machine

/-- A field of the next state, where there is one. -/
def look {α : Type} (o : Host.Outcome State Fault Refusal) (f : State → α) : Option α :=
  match o with
  | .next t => some (f t)
  | _ => none

theorem look_some {α : Type} {o : Host.Outcome State Fault Refusal} {f : State → α} {x : α} (h : look o f = some x) :
    ∃ t, o = .next t ∧ f t = x := by
  cases o with
  | next t => exact ⟨t, rfl, Option.some.inj h⟩
  | fault r => cases h
  | refused r => cases h

def word (v : Int) : Word := BitVec.ofInt 64 v
def maxWord : Word := word 9223372036854775807
def minWord : Word := word (-9223372036854775808)

/-- A program at address 0, RUNNING, the host silent (95_test_vectors.md, conventions). -/
def prog (cells : List Int) : State := placeAtPc State.reset (cells.map word)

/-- The same with a relative base. -/
def progRb (rb : Int) (cells : List Int) : State := (prog cells).setRb (word rb)

/-! Well-formedness: each check refuses an ill-formed instruction. -/

theorem test_wf_refuses_input_digit_three :
    (Instr.add 3 0 0).wf = false ∧ (Instr.mul 0 3 0).wf = false ∧ (Instr.out 9 : Instr).wf = false ∧
    (Instr.jt 3 0).wf = false ∧ (Instr.jf 0 4).wf = false ∧ (Instr.arb 3).wf = false := by decide
theorem test_wf_refuses_immediate_target :
    (Instr.add 0 0 1).wf = false ∧ (Instr.mul 0 0 1).wf = false ∧ (Instr.lt 0 0 1).wf = false ∧
    (Instr.eq 0 0 3).wf = false ∧ (Instr.inp 1).wf = false := by decide
theorem test_wf_accepts : (Instr.add 1 2 2).wf = true ∧ (Instr.inp 2).wf = true ∧ Instr.hlt.wf = true := by decide

/-! Decoding: words written out from 30_encoding.md R61, R63 and 95_test_vectors.md. -/

theorem test_decode_add_mul : decode 22101 = .instr (.add 1 2 2) ∧ decode 1002 = .instr (.mul 0 1 0) := by decide
theorem test_decode_in_out : decode 203 = .instr (.inp 2) ∧ decode 104 = .instr (.out 1) := by decide
theorem test_decode_jumps : decode 2105 = .instr (.jt 1 2) ∧ decode 1206 = .instr (.jf 2 1) := by decide
theorem test_decode_compare : decode 21207 = .instr (.lt 2 1 2) ∧ decode 1108 = .instr (.eq 1 1 0) := by decide
theorem test_decode_arb_hlt : decode 209 = .instr (.arb 2) ∧ decode 1234599 = .instr .hlt := by decide
theorem test_decode_refuses : decode 0 = .refused (.illegalCode 0) ∧ decode 377 = .refused (.illegalCode 77) ∧
    decode (word (-99)) = .refused .negativeWord := by decide
theorem test_encode_words : encode (.add 1 2 2) = 22101 ∧ encode (.eq 2 2 2) = 22208 ∧ encode .hlt = 99 := by decide
theorem test_table_word : decodeTableWord 24 1105 = some (.jt 1 1) ∧ decodeTableWord 8 99 = some .hlt := by decide
theorem test_fetch_word_runs : look (step (State.reset.withFetchWord 24 99)) (·.st) = some .halted := by decide

/-! One step of each instruction (95_test_vectors.md, vector ids in the names). -/

theorem test_add_S2 : look (step (prog [1, 0, 0, 0, 99])) (fun t => (t.pc, memGet t.mem 0)) = some (4, 2) := by decide
theorem test_add_V14_overflows :
    look (step (prog [1101, 9223372036854775807, 1, 0, 99])) (fun t => (t.st, t.errCause, t.pc, memGet t.mem 0)) =
      some (.error, .arithmeticOverflow, 0, 1101) := by decide
theorem test_mul_S3 : look (step (prog [2, 3, 0, 3, 99])) (fun t => (t.pc, memGet t.mem 3)) = some (4, 6) := by decide
theorem test_mul_V18_fits :
    look (step (prog [1102, -4294967296, 2147483648, 5, 99])) (fun t => memGet t.mem 5) = some minWord := by decide
theorem test_in_V24 :
    look (step ((progRb 10 [109, 10, 203, -4, 99]).setPc 2)) (fun t => (t.st, t.inDest, t.pc, memGet t.mem 6)) =
      some (.awaitInput, 6, 4, 0) := by decide
theorem test_in_S6_immediate : look (step (prog [103, 0, 99])) (fun t => (t.st, t.errCause)) =
    some (.error, .immediateWriteTarget) := by decide
theorem test_out_V22 : look (step (prog [104, -42, 99])) (fun t => (t.st, t.outVal, t.pc)) =
    some (.hasOutput, word (-42), 2) := by decide
theorem test_out_V49_negative : look (step (progRb (-3) [204, 2])) (fun t => (t.st, t.errCause, t.rb)) =
    some (.error, .negativeAddress, word (-3)) := by decide
theorem test_jt_V36_indirect : look (step (prog [5, 5, 6, 77, 99, 1, 4])) (·.pc) = some 4 := by decide
theorem test_jt_V34_untaken_negative : look (step (prog [1105, 0, -1, 99])) (fun t => (t.st, t.pc)) =
    some (.running, 3) := by decide
theorem test_jf_V28_negative_is_true : look (step (prog [1106, -1, 4, 99, 77])) (·.pc) = some 3 := by decide
theorem test_jf_V40 : look (step (prog [1106, 0, 4, 77, 99])) (·.pc) = some 4 := by decide
theorem test_lt_V41_signed : look (step (prog [1107, -3, 2, 5, 99, 9])) (fun t => memGet t.mem 5) = some 1 := by decide
theorem test_lt_V42_strict : look (step (prog [1107, 2, 2, 5, 99, 9])) (fun t => memGet t.mem 5) = some 0 := by decide
theorem test_eq_V45_own_word : look (step (prog [8, 5, 6, 0, 99, 3, 4])) (fun t => (memGet t.mem 0, t.pc)) =
    some (0, 4) := by decide
theorem test_eq_V46_unwritten : look (step (prog [8, 50, 51, 5, 99, 7])) (fun t => memGet t.mem 5) = some 1 := by decide
theorem test_arb_V52_old_base : look (step (progRb 4 [209, 0, 0, 0, 99])) (fun t => (t.rb, t.pc)) = some (103, 2) := by
  decide
theorem test_arb_V57_underflows : look (step (progRb (-1) [109, -9223372036854775808])) (fun t => (t.errCause, t.rb)) =
    some (.arithmeticOverflow, word (-1)) := by decide
theorem test_hlt_V58 : look (step (prog [99])) (fun t => (t.st, t.pc, t.mem)) = some (.halted, 1, [(0, 99)]) := by decide
theorem test_hlt_V9_unused_digits : look (step (prog [30099])) (·.st) = some .halted := by decide

/-! Errors and the control state machine. -/

theorem test_error_V60_code_first : look (step (prog [377, 0])) (·.errCause) = some .invalidOpcode := by decide
theorem test_error_V69_parameter_order : look (step (prog [30101, -1, -1, 0, 99])) (·.errCause) =
    some .negativeAddress := by decide
theorem test_error_V39_top_of_memory :
    look (step ((prog []).setPc maxWord)) (fun t => (t.st, t.errCause, t.errPc)) =
      some (.error, .arithmeticOverflow, maxWord) := by decide
theorem test_resume_V25_word_is_executed :
    look (step (((prog [3, 2, 0]).setInDest 2).setSt .awaitInput |>.setPc 2 |>.setHost [.whenStopped (.resume 99)]))
      (fun t => (t.st, t.pc, memGet t.mem 2)) = some (.running, 2, 99) := by decide
theorem test_reset_while_running :
    look (step ((progRb 7 [99]).setHost [.now .rst])) (fun t => (t.st, t.pc, t.rb, t.mem)) =
      some (.idle, 0, 0, [(0, 99)]) := by decide
theorem test_ignored_event_takes_no_turn :
    look (step ((prog [99]).setHost [.now .run])) (fun t => (t.st, t.host)) = some (.halted, []) := by decide
theorem test_boot_loads_and_runs :
    look (onEvent (.load [1, 0, 99]) State.reset) (fun t => (t.st, t.mem)) = some (.idle, [(0, 1), (2, 99)]) ∧
    look (step (State.reset.setHost [.now .run])) (·.st) = some .running := by decide

/-! Witnesses: for every obligation with hypotheses, states that meet them together. -/

theorem witness_DecodedFieldsAreTheDecimalDigits :
    (decode 1002 = .instr (.mul 0 1 0) ∧ (Instr.mul 0 1 0).digits[2]? = some 0 ∧ (1002 : Word).toNat < 10 ^ (2 + 2)) ∧
    (0 ≤ (100001 : Word).toInt ∧ 0 ≤ (1 : Word).toInt ∧ (100001 : Word).toNat % 100000 = (1 : Word).toNat % 100000 ∧
      decode 100001 = .instr (.add 0 0 0)) := by decide
theorem witness_UnexaminedDigitsHaveNoEffect :
    decode 99 = .instr .hlt ∧ 0 ≤ (1234599 : Word).toInt ∧
      (1234599 : Word).toNat % 10 ^ (2 + Instr.hlt.digits.length) = (99 : Word).toNat % 10 ^ (2 + Instr.hlt.digits.length) := by
  decide
theorem witness_PcAdvancesByTheLengthOfTheCode :
    let s := prog [1105, 0, 0, 99]
    0 ≤ s.pc.toInt ∧ (∃ t, exec (.jt 1 1) s = .next t ∧ t.st = .running) ∧ s.st ≠ .error ∧ ¬ jumpTaken (.jt 1 1) s :=
  ⟨by decide, look_some (by decide), by decide, fun h => h (by decide)⟩
theorem witness_ReadAfterWriteGivesTheValueWritten :
    State.reset.mem.wf = true ∧ 0 ≤ maxWord.toInt ∧ 0 ≤ (0 : Word).toInt ∧ (0 : Word) ≠ maxWord := by decide
theorem witness_NeverWrittenCellReadsZero :
    ∀ p ∈ [(Config.addrMax, (5 : Word)), (1, 7)], p.1 ≤ Config.addrMax ∧ p.1 ≠ 0 := by decide
theorem witness_MemoriesThatReadAlikeAreEqual :
    Memory.wf [(Config.addrMax, 1)] = true ∧
      ∀ a ≤ Config.addrMax, memGet [(Config.addrMax, 1)] a = memGet [(Config.addrMax, 1)] a :=
  ⟨by decide, fun _ _ => rfl⟩
theorem witness_LoadedProgramStandsFromAddressZero :
    State.reset.st = .idle ∧ ([0, 1] : List Word).length ≤ Config.addrMax + 1 ∧ State.reset.mem.wf = true ∧
      0 ≤ maxWord.toInt := by decide

/-- Every clause of the input forms: digits 3 and 9; the pointer at ADDR_MAX; Immediate; Position at 0 and at -1; Relative
sums 0, ADDR_MAX, -1, MIN_W, and just outside on both sides. -/
theorem witness_InputParameterInEveryMode :
    (0 ≤ (0 : Word).toInt ∧ 3 ≤ (3 : ModeDigit).val ∧ 3 ≤ (9 : ModeDigit).val) ∧
    ((2 : ModeDigit).val ≤ 2 ∧ maxWord.toInt = Config.maxW) ∧ (0 : Word).toInt < Config.maxW ∧
    (1 : ModeDigit).val = 1 ∧ ((0 : ModeDigit).val = 0 ∧ 0 ≤ (memGet (prog [0]).mem 0).toInt) ∧
    (memGet (prog [-1]).mem 0).toInt < 0 ∧
    ((2 : ModeDigit).val = 2 ∧ (progRb 3 [-3]).rb.toInt + (memGet (progRb 3 [-3]).mem 0).toInt = 0) ∧
    (progRb 1 [9223372036854775806]).rb.toInt + (memGet (progRb 1 [9223372036854775806]).mem 0).toInt = Config.maxW ∧
    ((progRb 0 [-1]).rb.toInt + (memGet (progRb 0 [-1]).mem 0).toInt < 0 ∧
      Config.minW ≤ (progRb 0 [-1]).rb.toInt + (memGet (progRb 0 [-1]).mem 0).toInt) ∧
    (progRb 0 [-9223372036854775808]).rb.toInt + (memGet (progRb 0 [-9223372036854775808]).mem 0).toInt = Config.minW ∧
    ¬ inRange ((progRb 1 [9223372036854775807]).rb.toInt + (memGet (progRb 1 [9223372036854775807]).mem 0).toInt) ∧
    ¬ inRange ((progRb (-1) [-9223372036854775808]).rb.toInt +
      (memGet (progRb (-1) [-9223372036854775808]).mem 0).toInt) := by decide
/-- The output forms share the clauses above, and the Immediate digit. -/
theorem witness_OutputParameterInEveryMode :
    0 ≤ maxWord.toInt ∧ maxWord.toInt = Config.maxW ∧ (1 : ModeDigit).val = 1 ∧ 3 ≤ (3 : ModeDigit).val ∧
    ((0 : ModeDigit).val = 0 ∨ (0 : ModeDigit).val = 2) ∧ 0 ≤ (memGet (prog [0]).mem (0 : Word).toNat).toInt ∧
    (memGet (prog [-1]).mem (0 : Word).toNat).toInt < 0 ∧
    (progRb 1 [9223372036854775806]).rb.toInt + (memGet (progRb 1 [9223372036854775806]).mem 0).toInt = Config.maxW := by
  decide
theorem witness_ModesAgreeWhenTheValuesAgree :
    let s := progRb 20 [-1]
    s.mem.wf = true ∧ 0 ≤ (0 : Word).toInt ∧ (19 : Word).toInt = s.rb.toInt + (memGet s.mem 0).toInt ∧
      0 ≤ (19 : Word).toInt ∧ (19 : Word) ≠ 0 ∧ 0 ≤ (memGet (prog [0]).mem 0).toInt := by decide
theorem witness_AddAndMulWriteTheExactResult :
    let s := prog [1101, 9223372036854775807, 0, 5, 99]
    let u := prog [1102, -4294967296, 2147483648, 5, 99]
    (s.cellsFit 4 ∧ s.readable 1 (s.param 0) ∧ s.readable 1 (s.param 1) ∧ s.writable 0 (s.param 2) ∧
      inRange ((s.inValue 1 (s.param 0)).toInt + (s.inValue 1 (s.param 1)).toInt)) ∧
    (u.cellsFit 4 ∧ u.readable 1 (u.param 0) ∧ u.readable 1 (u.param 1) ∧ u.writable 0 (u.param 2) ∧
      inRange ((u.inValue 1 (u.param 0)).toInt * (u.inValue 1 (u.param 1)).toInt)) := by decide
theorem witness_LtAndEqWriteOneOrZero :
    let s := progRb 1 [22208, -1, 0, 4]
    s.cellsFit 4 ∧ s.readable 2 (s.param 0) ∧ s.readable 2 (s.param 1) ∧ s.writable 2 (s.param 2) := by decide
theorem witness_InCapturesTheDestinationAndSuspends :
    let s := progRb 4 [203, -4]
    s.cellsFit 2 ∧ s.writable 2 (s.param 0) := by decide
theorem witness_OutCapturesTheValueAndSuspends :
    let s := prog [4, 9223372036854775807]
    s.cellsFit 2 ∧ s.readable 0 (s.param 0) := by decide
theorem witness_JumpsGoToTheTargetExactlyWhenTaken :
    let s := prog [1105, 1, 0]
    let u := prog [1105, 0, -1]
    (s.cellsFit 3 ∧ s.readable 1 (s.param 0) ∧ s.readable 1 (s.param 1) ∧
      (s.inValue 1 (s.param 0) ≠ 0 → 0 ≤ (s.inValue 1 (s.param 1)).toInt) ∧ s.inValue 1 (s.param 0) ≠ 0) ∧
    (u.cellsFit 3 ∧ u.readable 1 (u.param 0) ∧ u.readable 1 (u.param 1) ∧
      (u.inValue 1 (u.param 0) ≠ 0 → 0 ≤ (u.inValue 1 (u.param 1)).toInt) ∧ u.inValue 1 (u.param 0) = 0) ∧
    (s.inValue 1 (s.param 0) = 0 → 0 ≤ (s.inValue 1 (s.param 1)).toInt) := by decide
theorem witness_ArbAddsToTheRelativeBase :
    let s := prog [109, -9223372036854775808]
    s.cellsFit 2 ∧ s.readable 1 (s.param 0) ∧ inRange (s.rb.toInt + (s.inValue 1 (s.param 0)).toInt) := by decide
theorem witness_EveryWordEndingIn99Halts :
    let s := (prog [99]).setPc (word 9223372036854775806)
    let u := (prog []).setPc maxWord
    let v := u.setMem (memPut u.mem Config.addrMax 99)
    s.cellsFit 1 ∧
    ((prog [99]).st = .running ∧ (prog [99]).hostEvent = none ∧ 0 ≤ (prog [99]).pc.toInt ∧ 0 ≤ (prog [99]).word.toInt ∧
      (prog [99]).word.toNat % 100 = 99 ∧ (prog [99]).pc.toInt < Config.maxW) ∧
    (v.st = .running ∧ v.hostEvent = none ∧ 0 ≤ v.pc.toInt ∧ 0 ≤ v.word.toInt ∧ v.word.toNat % 100 = 99 ∧
      v.pc.toInt = Config.maxW) := by decide
theorem witness_AdjustingByKThenByMinusKRestoresTheBase :
    let s := progRb 1 [109, 9223372036854775806, 109, -9223372036854775806]
    let t := (s.setRb maxWord).setPc 2
    s.cellsFit 4 ∧ s.readable 1 (s.param 0) ∧ inRange (s.rb.toInt + (s.inValue 1 (s.param 0)).toInt) ∧
      exec (.arb 1) s = .next t ∧ t.readable 1 (t.param 0) ∧
      (t.inValue 1 (t.param 0)).toInt = -(s.inValue 1 (s.param 0)).toInt :=
  ⟨by decide, by decide, by decide, rfl, by decide, by decide⟩
theorem witness_StoredWordIsTheNextInstruction :
    let s := prog [1101, 98, 1, 4, 0]
    s.mem.wf = true ∧ s.pc.toInt + 5 ≤ Config.maxW ∧ 0 ≤ s.pc.toInt ∧ s.readable 1 (s.param 0) ∧
      s.readable 1 (s.param 1) ∧ s.writable 0 (s.param 2) ∧ s.ea 0 (s.param 2) = s.pc.toInt + 4 ∧
      (99 : Word).toInt = (s.inValue 1 (s.param 0)).toInt + (s.inValue 1 (s.param 1)).toInt ∧
      decode 99 = .instr .hlt := by decide
theorem witness_ErrorReportedIsTheFirstInOrder :
    (0 ≤ (prog [30101, -1, -1, 0]).pc.toInt ∧
      errorsAt (.add 1 0 3) (prog [30101, -1, -1, 0]) = [.negativeAddress, .invalidAddressingMode] ∧
      errorsAt (.add 0 0 0) (prog [1, 0, 0, 0]) = []) ∧
    (((prog []).setPc maxWord).st = .running ∧ ((prog []).setPc maxWord).hostEvent = none ∧
      0 ≤ ((prog []).setPc maxWord).pc.toInt ∧ ((prog []).setPc maxWord).pc.toInt = Config.maxW) ∧
    ((prog [377]).st = .running ∧ (prog [377]).hostEvent = none ∧ (prog [377]).pc.toInt < Config.maxW ∧
      decode (prog [377]).word = .refused (.illegalCode 77)) := by decide
theorem witness_FailedStepCommitsNothing :
    let s := prog [77]
    s.st = .running ∧ s.hostEvent = none ∧ ∃ t, step s = .next t ∧ t.st = .error :=
  ⟨by decide, by decide, look_some (by decide)⟩
theorem witness_InvalidOpcodeExactlyOnIllegalWords :
    let s := (prog []).setPc (word 9223372036854775806)
    let u := prog [99]
    (s.st = .running ∧ s.hostEvent = none ∧ 0 ≤ s.pc.toInt ∧ s.pc.toInt < Config.maxW ∧ s.word.toNat % 100 = 0) ∧
    (u.st = .running ∧ u.hostEvent = none ∧ 0 ≤ u.pc.toInt ∧ u.pc.toInt < Config.maxW ∧
      u.word.toNat % 100 ∈ [1, 2, 3, 4, 5, 6, 7, 8, 9, 99]) := by decide
theorem witness_ResultOutsideTheRangeOverflows :
    let s := prog [1101, 9223372036854775807, 1, 0]
    let u := prog [1102, -9223372036854775808, -1, 5]
    let v := progRb 9223372036854775807 [109, 1]
    (s.cellsFit 4 ∧ s.readable 1 (s.param 0) ∧ s.readable 1 (s.param 1) ∧ s.writable 0 (s.param 2) ∧
      ¬ inRange ((s.inValue 1 (s.param 0)).toInt + (s.inValue 1 (s.param 1)).toInt)) ∧
    (u.cellsFit 4 ∧ u.readable 1 (u.param 0) ∧ u.readable 1 (u.param 1) ∧ u.writable 0 (u.param 2) ∧
      ¬ inRange ((u.inValue 1 (u.param 0)).toInt * (u.inValue 1 (u.param 1)).toInt)) ∧
    (v.cellsFit 2 ∧ v.readable 1 (v.param 0) ∧ ¬ inRange (v.rb.toInt + (v.inValue 1 (v.param 0)).toInt)) := by decide
theorem witness_NegativeTargetIsAnErrorOnlyWhenTaken :
    let s := prog [1105, 1, -1]
    let u := prog [1105, 0, -1]
    (s.cellsFit 3 ∧ s.readable 1 (s.param 0) ∧ s.readable 1 (s.param 1) ∧ (s.inValue 1 (s.param 1)).toInt < 0 ∧
      s.inValue 1 (s.param 0) ≠ 0) ∧
    (u.cellsFit 3 ∧ u.readable 1 (u.param 0) ∧ u.readable 1 (u.param 1) ∧ (u.inValue 1 (u.param 1)).toInt < 0 ∧
      u.inValue 1 (u.param 0) = 0) := by decide
theorem witness_JumpToAnUnwrittenCellFailsAtTheNextFetch :
    let s := prog [1105, 1, 3]
    let u := prog [1106, 0, 9223372036854775807]
    (s.st = .running ∧ s.host = [] ∧ s.cellsFit 3 ∧ s.readable 1 (s.param 0) ∧ s.readable 1 (s.param 1) ∧
      0 ≤ (s.inValue 1 (s.param 1)).toInt ∧ (s.inValue 1 (s.param 1)).toInt ≠ Config.maxW ∧
      jumpTaken (.jt 1 1) s ∧ memGet s.mem (s.inValue 1 (s.param 1)).toNat = 0) ∧
    (u.st = .running ∧ u.host = [] ∧ u.cellsFit 3 ∧ u.readable 1 (u.param 0) ∧ u.readable 1 (u.param 1) ∧
      0 ≤ (u.inValue 1 (u.param 1)).toInt ∧ (u.inValue 1 (u.param 1)).toInt = Config.maxW ∧
      jumpTaken (.jf 1 1) u ∧ memGet u.mem (u.inValue 1 (u.param 1)).toNat = 0) := by decide

theorem witness_InvalidLatchesAreNeverRead : (prog [99]).st ≠ .awaitInput ∧ State.reset.st ≠ .awaitInput := by decide

/-- The state of vector V75 while it waits for its input 77. -/
def waiting : State :=
  (((prog [3, 2, 0]).setInDest 2).setSt .awaitInput).setPc 2 |>.setHost [.whenStopped (.resume 77)]

theorem witness_ErrorAfterAResumeKeepsTheInput :
    waiting.st = .awaitInput ∧ waiting.mem.wf = true ∧ 0 ≤ waiting.inDest.toInt ∧
      waiting.host = [.whenStopped (.resume 77)] ∧
      ∃ t, step waiting = .next t ∧ ∃ u, step t = .next u ∧ u.st = .error :=
  ⟨by decide, by decide, by decide, by decide,
    (look_some (f := fun t => look (step t) (·.st)) (x := some .error) (by decide)).imp fun _ h => ⟨h.1, look_some h.2⟩⟩
theorem witness_RegistersChangeOnlyByTheirInstruction :
    (∃ t, exec (.inp 0) (prog [3, 0]) = .next t ∧ t.st = .awaitInput) ∧
    (∃ t, exec (.arb 3) (prog [309, 0]) = .next t ∧ t.st = .error) :=
  ⟨look_some (by decide), look_some (by decide)⟩
theorem witness_StoringInstructionsWriteOnlyTheirTarget :
    (prog [1, 0, 0, 0]).mem.wf = true ∧ (∃ t, exec (.add 0 0 0) (prog [1, 0, 0, 0]) = .next t ∧ t.st = .running) ∧
      (∃ t, exec (.eq 0 0 1) (prog [10008, 0, 0, 0]) = .next t ∧ t.st = .error) :=
  ⟨by decide, look_some (by decide), look_some (by decide)⟩
theorem witness_OtherInstructionsWriteNoMemory :
    (Instr.inp 0).code ∈ [3, 4, 5, 6, 9, 99] ∧ ∃ t, exec (.inp 0) (prog [3, 0]) = .next t ∧ t.st = .awaitInput :=
  ⟨by decide, look_some (by decide)⟩
theorem witness_RelativeBaseMattersOnlyToRelativeModeAndArb :
    (∀ d ∈ (Instr.add 0 1 3).digits, d.val ≠ 2) ∧ (Instr.add 0 1 3).code ≠ 9 := by decide
theorem witness_StepRunsTheDecodedInstruction :
    let s := (prog [99]).setHost [.pass]
    let u := (prog [99]).setHost [.whenStopped .run]
    (s.st = .running ∧ s.hostEvent = none ∧ 0 ≤ s.pc.toInt ∧ decode s.word = .instr .hlt) ∧
    (u.st = .running ∧ u.hostEvent = none ∧ 0 ≤ u.pc.toInt ∧ decode u.word = .instr .hlt) := by decide
theorem witness_ResumeWritesTheInputAndRuns :
    waiting.st = .awaitInput ∧ waiting.hostEvent = some (.resume 77) ∧ waiting.mem.wf = true ∧
      0 ≤ waiting.inDest.toInt ∧ waiting.inDest = waiting.pc := by decide
theorem witness_ResumeAfterOutputRunsOn :
    let s := ((prog [99]).setSt .hasOutput).setHost [.now (.resume 5)]
    s.st = .hasOutput ∧ s.hostEvent = some (.resume 5) := by decide
theorem witness_RunStartsTheCoreFromIdle :
    let s := State.reset.setHost [.whenStopped .run]
    s.st = .idle ∧ s.hostEvent = some .run := by decide
theorem witness_UnlistedEventsChangeNothing :
    (prog []).st ≠ .idle ∧ (prog []).st ≠ .awaitInput ∧ (prog []).st ≠ .hasOutput ∧ (prog []).st ≠ .halted := by decide
theorem witness_HaltedAndErrorAreTerminal :
    let s := ((prog []).setSt .halted).setHost [.now (.resume 1)]
    let u := (prog []).enterError .invalidOpcode
    (s.st = .halted ∨ s.st = .error) ∧ s.hostEvent ≠ some .rst ∧ (u.st = .halted ∨ u.st = .error) ∧
      u.hostEvent ≠ some .rst := by decide
theorem witness_SuspendedCoreWaitsForTheHost :
    let s := ((prog []).setSt .awaitInput).setHost [.now .run]
    let u := (prog []).setSt .hasOutput
    ((s.st = .awaitInput ∨ s.st = .hasOutput) ∧ s.hostEvent ≠ some .rst ∧ ∀ v, s.hostEvent ≠ some (.resume v)) ∧
    ((u.st = .awaitInput ∨ u.st = .hasOutput) ∧ u.hostEvent ≠ some .rst ∧ ∀ v, u.hostEvent ≠ some (.resume v)) :=
  ⟨⟨by decide, by decide, fun _ h => nomatch h⟩, by decide, by decide, fun _ h => nomatch h⟩
theorem witness_StopsAreEnteredOnlyByTheirInstruction :
    (∃ t, step (prog [3, 0]) = .next t ∧ t.st = .awaitInput) ∧ (∃ t, step (prog [4, 0]) = .next t ∧ t.st = .hasOutput) ∧
    (∃ t, step (prog [99]) = .next t ∧ t.st = .halted) ∧ (∃ t, step (prog [0]) = .next t ∧ t.st = .error) ∧
    (prog []).st = .running :=
  ⟨look_some (by decide), look_some (by decide), look_some (by decide), look_some (by decide), by decide⟩
theorem witness_RelativeBaseChangesOnlyByArbOrReset :
    (∃ t, step (prog [109, 20]) = .next t ∧ t.rb = 20) ∧ (prog [109, 20]).rb = 0 ∧
    (∃ t, step ((progRb 7 [99]).setHost [.now .rst]) = .next t ∧ t.rb = 0) ∧ (progRb 7 [99]).rb = 7 :=
  ⟨look_some (by decide), by decide, look_some (by decide), by decide⟩
theorem witness_MemoryChangesOnlyByStoreResumeOrHostWrite :
    (∃ t, step (prog [1, 0, 0, 0]) = .next t ∧ memGet t.mem 0 = 2) ∧ memGet (prog [1, 0, 0, 0]).mem 0 = 1 ∧
    (∃ t, step waiting = .next t ∧ memGet t.mem 2 = 77) ∧ memGet waiting.mem 2 = 0 ∧
    (∃ t, step (State.reset.setHost [.now (.poke 1 5)]) = .next t ∧ memGet t.mem 1 = 5) ∧
    (∃ t, step (State.reset.setHost [.now (.load [9])]) = .next t ∧ memGet t.mem 0 = 9) :=
  ⟨look_some (by decide), by decide, look_some (by decide), by decide, look_some (by decide), look_some (by decide)⟩
theorem witness_ResetEventFromAnyState :
    ((progRb 7 [99]).setHost [.now .rst]).hostEvent = some .rst ∧ (progRb 7 [99]).st = .running ∧
    (waiting.setHost [.whenStopped .rst]).hostEvent = some .rst ∧ waiting.st = .awaitInput := by decide
theorem witness_HostSeesOnlyWhatTheStateOffers :
    (prog []).st = .running ∧ State.reset.st ≠ .running ∧ waiting.st = .awaitInput := by decide
theorem witness_EveryStepKeepsTheInvariant :
    State.reset.Inv ∧ (prog [99]).Inv ∧ waiting.Inv ∧ ∃ t, step (prog [99]) = .next t ∧ t.st = .halted :=
  ⟨⟨by decide, by decide, by decide, by decide, by decide⟩, ⟨by decide, by decide, by decide, by decide, by decide⟩,
    ⟨by decide, by decide, by decide, by decide, by decide⟩, look_some (by decide)⟩
theorem witness_MachineNeverGetsStuck : State.reset.Inv ∧ waiting.Inv :=
  ⟨witness_EveryStepKeepsTheInvariant.1, witness_EveryStepKeepsTheInvariant.2.2.1⟩

end Sys2Proof.Tests
end

/-! Noninterference of a part of the state that no transition reads: two states that agree up to `g`, which overwrites
that part, have transitions that agree up to `g`. The statement about the host's moves is the case
`g = (·.setHost [])`. -/

namespace Sys2Proof.Machine

/-- `g` keeps apart any two states that differ in what the core reads (pc, rb, st, memory), and every update that a
transition makes takes states equal up to `g` to states equal up to `g`. Nothing is asked of in_dest, which one transition
reads: the resume from AWAIT_INPUT (47_control_fsm.md R125). -/
structure Hides (g : State → State) : Prop where
  pc {a b : State} : g a = g b → a.pc = b.pc
  rb {a b : State} : g a = g b → a.rb = b.rb
  st {a b : State} : g a = g b → a.st = b.st
  mem {a b : State} : g a = g b → a.mem = b.mem
  setPc {a b : State} (v : Word) : g a = g b → g (a.setPc v) = g (b.setPc v)
  setRb {a b : State} (v : Word) : g a = g b → g (a.setRb v) = g (b.setRb v)
  setSt {a b : State} (c : Ctrl) : g a = g b → g (a.setSt c) = g (b.setSt c)
  setMem {a b : State} (m : Memory) : g a = g b → g (a.setMem m) = g (b.setMem m)
  setInDest {a b : State} (v : Word) : g a = g b → g (a.setInDest v) = g (b.setInDest v)
  setOutVal {a b : State} (v : Word) : g a = g b → g (a.setOutVal v) = g (b.setOutVal v)
  enterError {a b : State} (c : ErrCause) : g a = g b → g (a.enterError c) = g (b.enterError c)
  forgetInDest {a b : State} : g a = g b → g a.forgetInDest = g b.forgetInDest
  forgetOutVal {a b : State} : g a = g b → g a.forgetOutVal = g b.forgetOutVal
  onReset {a b : State} : g a = g b → g (onReset a) = g (onReset b)

/-- `sameUpTo` inside a step: two results that agree, their states up to `g`. -/
def Res.sameUpTo (g : State → State) : Res State → Res State → Prop
  | .ok t, .ok u => g t = g u
  | .err c, .err d => c = d
  | .stop f, .stop f' => f = f'
  | _, _ => False

theorem Res.sameUpTo_bind {α : Type} {g : State → State} (x : Res α) {f f' : α → Res State}
    (h : ∀ v, Res.sameUpTo g (f v) (f' v)) : Res.sameUpTo g (x.bind f) (x.bind f') :=
  match x with
  | .ok v => h v
  | .err _ => rfl
  | .stop _ => rfl

theorem Res.sameUpTo.bind {g : State → State} {x y : Res State} {f f' : State → Res State} (hxy : Res.sameUpTo g x y)
    (h : ∀ t u, g t = g u → Res.sameUpTo g (f t) (f' u)) : Res.sameUpTo g (x.bind f) (y.bind f') :=
  match x, y, hxy with
  | .ok t, .ok u, htu => h t u htu
  | .err _, .err _, hcd => hcd
  | .stop _, .stop _, hff' => hff'

section
variable {g : State → State} (hg : Hides g) {a b : State} (hab : g a = g b)
include hg hab

/-! What a step reads is the same value in both states. -/

theorem readCell_eq_of_hides (p : Word) : readCell a p = readCell b p := by
  simp only [readCell, hg.mem hab]

theorem readParam_eq_of_hides (p : Word) : readParam a p = readParam b p := by
  simp only [readParam, readCell_eq_of_hides hg hab]

theorem relativeAddress_eq_of_hides (raw : Word) : relativeAddress a raw = relativeAddress b raw := by
  simp only [relativeAddress, hg.rb hab]

theorem readIn_eq_of_hides (d : ModeDigit) (p : Word) : readIn a d p = readIn b d p := by
  simp only [readIn, readParam_eq_of_hides hg hab, relativeAddress_eq_of_hides hg hab, readCell_eq_of_hides hg hab]

theorem resolveOut_eq_of_hides (d : ModeDigit) (p : Word) : resolveOut a d p = resolveOut b d p := by
  simp only [resolveOut, readParam_eq_of_hides hg hab, relativeAddress_eq_of_hides hg hab]

theorem fetchDecode_eq_of_hides : fetchDecode a = fetchDecode b := by
  simp only [fetchDecode, readCell_eq_of_hides hg hab, hg.pc hab]

/-! What a step writes keeps the states equal up to `g`. -/

theorem writeCell_sameUpTo (p v : Word) : Res.sameUpTo g (writeCell a p v) (writeCell b p v) := by
  unfold writeCell
  rw [hg.mem hab]
  split
  · rfl
  · exact hg.setMem _ hab

theorem jumpTo_sameUpTo (p : Word) : Res.sameUpTo g (jumpTo a p) (jumpTo b p) :=
  Res.sameUpTo_bind (checkAddress p) fun t => hg.setPc t hab

theorem threeParam_sameUpTo (op : Word → Word → Res Word) (m0 m1 m2 : ModeDigit) :
    Res.sameUpTo g (threeParam op m0 m1 m2 a) (threeParam op m0 m1 m2 b) := by
  simp only [threeParam, hg.pc hab, readIn_eq_of_hides hg hab, resolveOut_eq_of_hides hg hab]
  refine Res.sameUpTo_bind _ fun _ => Res.sameUpTo_bind _ fun _ => Res.sameUpTo_bind _ fun _ =>
    Res.sameUpTo_bind _ fun target => Res.sameUpTo_bind _ fun result => ?_
  exact (writeCell_sameUpTo hg hab target.1 result).bind fun _ _ htu => hg.setPc target.2 htu

theorem condJump_sameUpTo (taken : Word → Bool) (m0 m1 : ModeDigit) :
    Res.sameUpTo g (condJump taken m0 m1 a) (condJump taken m0 m1 b) := by
  simp only [condJump, hg.pc hab, readIn_eq_of_hides hg hab]
  refine Res.sameUpTo_bind _ fun _ => Res.sameUpTo_bind _ fun cond => Res.sameUpTo_bind _ fun target => ?_
  split
  · exact jumpTo_sameUpTo hg hab target.1
  · exact hg.setPc target.2 hab

theorem oneIn_sameUpTo {f f' : Word → Res State} (hf : ∀ v, Res.sameUpTo g (f v) (f' v)) (m0 : ModeDigit) :
    Res.sameUpTo g (oneIn f m0 a) (oneIn f' m0 b) := by
  simp only [oneIn, hg.pc hab, readIn_eq_of_hides hg hab]
  refine Res.sameUpTo_bind _ fun _ => Res.sameUpTo_bind _ fun value => ?_
  exact (hf value.1).bind fun _ _ htu => hg.setPc value.2 htu

theorem oneOut_sameUpTo {f f' : Word → Res State} (hf : ∀ v, Res.sameUpTo g (f v) (f' v)) (m0 : ModeDigit) :
    Res.sameUpTo g (oneOut f m0 a) (oneOut f' m0 b) := by
  simp only [oneOut, hg.pc hab, resolveOut_eq_of_hides hg hab]
  refine Res.sameUpTo_bind _ fun _ => Res.sameUpTo_bind _ fun target => ?_
  exact (hf target.1).bind fun _ _ htu => hg.setPc target.2 htu

/-- The end of a step: the same error is taken in both states, or what both commit agrees. -/
theorem finish_sameUpTo {r r' : Res State} (hr : Res.sameUpTo g r r') : sameUpTo g (finish a r) (finish b r') :=
  match r, r', hr with
  | .ok _, .ok _, htu => htu
  | .err c, .err _, rfl => hg.enterError c hab
  | .stop _, .stop _, hff' => hff'

theorem exec_sameUpTo (i : Instr) : sameUpTo g (exec i a) (exec i b) := by
  cases i with
  | add m0 m1 m2 => exact finish_sameUpTo hg hab (threeParam_sameUpTo hg hab _ m0 m1 m2)
  | mul m0 m1 m2 => exact finish_sameUpTo hg hab (threeParam_sameUpTo hg hab _ m0 m1 m2)
  | lt m0 m1 m2 => exact finish_sameUpTo hg hab (threeParam_sameUpTo hg hab _ m0 m1 m2)
  | eq m0 m1 m2 => exact finish_sameUpTo hg hab (threeParam_sameUpTo hg hab _ m0 m1 m2)
  | jt m0 m1 => exact finish_sameUpTo hg hab (condJump_sameUpTo hg hab _ m0 m1)
  | jf m0 m1 => exact finish_sameUpTo hg hab (condJump_sameUpTo hg hab _ m0 m1)
  | inp m0 =>
    refine finish_sameUpTo hg hab (oneOut_sameUpTo hg hab (fun t => ?_) m0)
    exact hg.setSt _ (hg.setInDest t hab)
  | out m0 =>
    refine finish_sameUpTo hg hab (oneIn_sameUpTo hg hab (fun v => ?_) m0)
    exact hg.setSt _ (hg.setOutVal v hab)
  | arb m0 =>
    refine finish_sameUpTo hg hab (oneIn_sameUpTo hg hab (fun v => ?_) m0)
    rw [hg.rb hab]
    exact Res.sameUpTo_bind _ fun sum => hg.setRb sum hab
  | hlt =>
    refine finish_sameUpTo hg hab ?_
    rw [hg.pc hab]
    exact Res.sameUpTo_bind _ fun next => hg.setPc next (hg.setSt _ hab)

theorem runStep_sameUpTo : sameUpTo g (runStep a) (runStep b) := by
  unfold runStep
  rw [fetchDecode_eq_of_hides hg hab]
  cases fetchDecode b with
  | ok i => exact exec_sameUpTo hg hab i
  | err c => exact hg.enterError c hab
  | stop f => rfl

theorem coreTurn_sameUpTo : sameUpTo g (coreTurn a) (coreTurn b) := by
  unfold coreTurn
  rw [hg.st hab]
  split
  · exact runStep_sameUpTo hg hab
  · exact hab

/-! The host's events. A resume reads in_dest, in AWAIT_INPUT alone, so the states must agree in it there. -/

theorem resumeInput_sameUpTo (hdest : a.inDest = b.inDest) (v : Word) :
    Res.sameUpTo g (resumeInput a v) (resumeInput b v) := by
  unfold resumeInput
  rw [hdest]
  exact (writeCell_sameUpTo hg hab b.inDest v).bind fun _ _ htu => hg.setSt _ (hg.forgetInDest htu)

theorem onResume_sameUpTo (hdest : b.st = .awaitInput → a.inDest = b.inDest) (v : Word) :
    Res.sameUpTo g (onResume a v) (onResume b v) := by
  unfold onResume
  rw [hg.st hab]
  cases hst : b.st with
  | awaitInput => exact resumeInput_sameUpTo hg hab (hdest hst) v
  | hasOutput => exact hg.setSt _ (hg.forgetOutVal hab)
  | idle | running | halted | error => exact hab

theorem onEvent_sameUpTo (hdest : b.st = .awaitInput → a.inDest = b.inDest) (e : HostEvent) :
    sameUpTo g (onEvent e a) (onEvent e b) := by
  cases e with
  | rst => exact hg.onReset hab
  | run =>
    simp only [onEvent, onRun, hg.st hab]
    split
    · exact hg.setSt _ hab
    · exact hab
  | resume v => exact finish_sameUpTo hg hab (onResume_sameUpTo hg hab hdest v)
  | poke p v =>
    simp only [onEvent, onPoke, hg.st hab, hg.mem hab]
    split
    · exact hg.setMem _ hab
    · exact hab
  | load cells =>
    simp only [onEvent, onLoad, hg.st hab]
    split
    · exact hg.setMem _ hab
    · exact hab

theorem transitionOn_sameUpTo (hdest : b.st = .awaitInput → a.inDest = b.inDest) (e : Option HostEvent) :
    sameUpTo g (transitionOn e a) (transitionOn e b) := by
  cases e with
  | none => exact coreTurn_sameUpTo hg hab
  | some e =>
    simp only [transitionOn, hg.st hab]
    split
    · exact coreTurn_sameUpTo hg hab
    · exact onEvent_sameUpTo hg hab hdest e

end

/-- The moves the host is still to make are read and written by no transition on a given event. -/
theorem hides_host : Hides (·.setHost []) where
  pc h := congrArg (·.pc) h
  rb h := congrArg (·.rb) h
  st h := congrArg (·.st) h
  mem h := congrArg (·.mem) h
  setPc v h := congrArg (·.setPc v) h
  setRb v h := congrArg (·.setRb v) h
  setSt c h := congrArg (·.setSt c) h
  setMem m h := congrArg (·.setMem m) h
  setInDest v h := congrArg (·.setInDest v) h
  setOutVal v h := congrArg (·.setOutVal v) h
  enterError c h := congrArg (·.enterError c) h
  forgetInDest h := congrArg (·.forgetInDest) h
  forgetOutVal h := congrArg (·.forgetOutVal) h
  onReset h := congrArg onReset h

/-- A transition on a given event, from two states that differ in the host's remaining moves alone. -/
theorem transitionOn_sameUpTo_host {a b : State} (hab : a.setHost [] = b.setHost []) (e : Option HostEvent) :
    sameUpTo (·.setHost []) (transitionOn e a) (transitionOn e b) :=
  transitionOn_sameUpTo hides_host hab (fun _ => congrArg (·.inDest) hab) e

theorem onItsTurn_setHost (s : State) (h : List HostMove) : s.onItsTurn.setHost h = s.setHost h := by
  unfold State.onItsTurn
  split <;> rfl

/-- `nextMove` and `hostEvent` name the host's move alike: the step is the transition on `hostEvent`, from a state in which
nothing but the host's remaining moves is changed. -/
theorem step_eq_transitionOn_hostEvent (s : State) :
    ∃ t : State, t.setHost [] = s.setHost [] ∧ step s = transitionOn s.hostEvent t := by
  cases hev : s.hostEvent with
  | some e =>
    have hmoves : ¬(s.moveUsed.st = .running ∧ e ≠ .rst) := fun h => h.2 (hostEvent_running (s := s) h.1 hev)
    exact ⟨s.moveUsed, rfl, by rw [step_event hev, transitionOn, if_neg hmoves]⟩
  | none =>
    by_cases hst : s.st = .running
    · have hturn : s.onItsTurn.st = .running := by rw [onItsTurn_st, hst]
      exact ⟨s.onItsTurn, onItsTurn_setHost s [], by rw [step_running hst hev, transitionOn, coreTurn, if_pos hturn]⟩
    · have hwait : ¬s.moveUsed.st = .running := hst
      exact ⟨s.moveUsed, rfl, by rw [step_waiting hst hev, transitionOn, coreTurn, if_neg hwait]⟩

/-- Settles O36: the host's remaining moves are hidden from every transition on a given event, and the step is such a
transition. -/
theorem hostMovesEnterOnlyAsTheEvent : Obligations.HostMovesEnterOnlyAsTheEvent := by
  unfold Obligations.HostMovesEnterOnlyAsTheEvent
  constructor
  · intro e s h
    exact transitionOn_sameUpTo_host (a := s) (b := s.setHost h) rfl e
  · intro s
    obtain ⟨t, hts, hstep⟩ := step_eq_transitionOn_hostEvent s
    rw [hstep]
    exact transitionOn_sameUpTo_host hts s.hostEvent

end Sys2Proof.Machine

/-! The state as a whole: what each instruction leaves of the registers, the invariant of every run with one rule per state
operation, progress, the latches no step reads, and the host's view. -/

namespace Sys2Proof.Machine

/-! Inversion: how a next state of `exec` and of `step` can have come about. -/

/-- A next state of `exec` is what the instruction commits, or an error taken. -/
theorem exec_next_cases {i : Instr} {s t : State} (h : exec i s = .next t) :
    Commits i s t ∨ ∃ c, c ≠ .none ∧ t = s.enterError c := by
  obtain ⟨u, hu, hcommits⟩ | ⟨c, ⟨hc, -⟩, hu⟩ | ⟨hfault, -⟩ := exec_cases i s
  · cases hu.symm.trans h
    exact .inl hcommits
  · cases hu.symm.trans h
    exact .inr ⟨c, hc, rfl⟩
  · cases hfault.symm.trans h

/-- A next state of `step` comes from the host's event, from the core waiting outside RUNNING, from the decoded instruction,
or from an error taken. -/
theorem step_next_cases {s t : State} (h : step s = .next t) :
    (∃ e, s.hostEvent = some e ∧ onEvent e s.moveUsed = .next t) ∨
    (s.st ≠ .running ∧ t = s.moveUsed) ∨
    (s.st = .running ∧ ∃ i, decode s.word = .instr i ∧ exec i s.onItsTurn = .next t) ∨
    (s.st = .running ∧ ∃ c, c ≠ .none ∧ t = s.onItsTurn.enterError c) := by
  cases hev : s.hostEvent with
  | some e => exact .inl ⟨e, rfl, (step_event hev).symm.trans h⟩
  | none =>
    by_cases hst : s.st = .running
    · obtain hexec | herror := step_running_cases hst hev h
      · exact .inr (.inr (.inl ⟨hst, hexec⟩))
      · exact .inr (.inr (.inr ⟨hst, herror⟩))
    · cases (step_waiting hst hev).symm.trans h
      exact .inr (.inl ⟨hst, rfl⟩)

/-! The frame of the registers (10_state.md R10). -/

/-- What an instruction commits leaves every register that it does not write. -/
theorem Commits.frame {i : Instr} {s t : State} (h : Commits i s t) :
    (i.code ≠ 9 → t.rb = s.rb) ∧ (i.code ≠ 3 → t.inDest = s.inDest) ∧ (i.code ≠ 4 → t.outVal = s.outVal) ∧
    t.host = s.host ∧ t.draws = s.draws ∧ t.errCause = s.errCause ∧ t.errPc = s.errPc ∧
    t.st = (if i.code = 3 then .awaitInput else if i.code = 4 then .hasOutput else if i.code = 99 then .halted
      else s.st) := by
  cases i with
  | add | mul | lt | eq =>
    obtain ⟨p, a, q, r, -, -, -, -, rfl⟩ := h
    simp [Instr.code]
  | jt | jf =>
    obtain ⟨q, -, rfl⟩ := h
    simp [Instr.code]
  | inp =>
    obtain ⟨a, q, -, -, rfl⟩ := h
    simp [Instr.code]
  | out =>
    obtain ⟨a, q, -, rfl⟩ := h
    simp [Instr.code]
  | arb =>
    obtain ⟨v, q, -, rfl⟩ := h
    simp [Instr.code]
  | hlt =>
    obtain ⟨q, -, rfl⟩ := h
    simp [Instr.code]

/-- Settles O31: a step that takes an error leaves rb and the latches, and every other step has the frame of what its
instruction commits. -/
theorem registersChangeOnlyByTheirInstruction : Obligations.RegistersChangeOnlyByTheirInstruction := by
  unfold Obligations.RegistersChangeOnlyByTheirInstruction
  intro i s t h
  obtain hcommits | ⟨c, hc, rfl⟩ := exec_next_cases h
  · obtain ⟨hrb, hdest, hout, hhost, hdraws, hkept⟩ := hcommits.frame
    exact ⟨hrb, hdest, hout, hhost, hdraws, .inr hkept⟩
  · exact ⟨fun _ => rfl, fun _ => rfl, fun _ => rfl, rfl, rfl, .inl ⟨c, hc, rfl⟩⟩

/-! rb (10_state.md R15). -/

theorem eq_arb_of_code {i : Instr} (h : i.code = 9) : ∃ m0, i = .arb m0 := by
  cases i with
  | arb m0 => exact ⟨m0, rfl⟩
  | _ => simp [Instr.code] at h

/-- No event of the host but the reset writes rb. -/
theorem onEvent_rb {e : HostEvent} {s t : State} (he : e ≠ .rst) (h : onEvent e s = .next t) : t.rb = s.rb := by
  obtain ⟨rfl, -⟩ | ⟨-, -, hu⟩ | ⟨v, -, -, -, hu⟩ | ⟨v, -, -, -, hu⟩ | ⟨v, -, -, hu⟩ | ⟨a, v, -, -, -, hu⟩ |
    ⟨cells, -, -, hu⟩ | hu := onEvent_cases e s
  · exact absurd rfl he
  all_goals cases hu.symm.trans h <;> rfl

/-- Settles O45: of the host's events the reset alone writes rb, and of the instructions `arb` alone. -/
theorem relativeBaseChangesOnlyByArbOrReset : Obligations.RelativeBaseChangesOnlyByArbOrReset := by
  unfold Obligations.RelativeBaseChangesOnlyByArbOrReset
  intro s t h hrb
  obtain ⟨e, hev, he⟩ | ⟨-, rfl⟩ | ⟨hst, i, hdec, hexec⟩ | ⟨-, c, -, rfl⟩ := step_next_cases h
  · by_cases hrst : e = .rst
    · exact .inl (hrst ▸ hev)
    · exact absurd (onEvent_rb hrst he) hrb
  · exact absurd rfl hrb
  · by_cases hcode : i.code = 9
    · obtain ⟨m0, rfl⟩ := eq_arb_of_code hcode
      exact .inr ⟨hst, m0, hdec⟩
    · have hkept := (registersChangeOnlyByTheirInstruction i _ t hexec).1 hcode
      exact absurd (hkept.trans (onItsTurn_rb s)) hrb
  · exact absurd (onItsTurn_rb s) hrb

/-! The invariant: one rule for each state operation, then what an instruction commits and what the host's events do. -/

section
variable {s : State} (hs : s.Inv)
include hs

theorem State.Inv.setHost (r : List HostMove) : (s.setHost r).Inv :=
  ⟨hs.pcAddress, hs.destAddress, hs.causeIffError, hs.errPcIsPc, hs.memWf⟩

theorem State.Inv.setRb (v : Word) : (s.setRb v).Inv :=
  ⟨hs.pcAddress, hs.destAddress, hs.causeIffError, hs.errPcIsPc, hs.memWf⟩

theorem State.Inv.setOutVal (v : Word) : (s.setOutVal v).Inv :=
  ⟨hs.pcAddress, hs.destAddress, hs.causeIffError, hs.errPcIsPc, hs.memWf⟩

theorem State.Inv.forgetOutVal : s.forgetOutVal.Inv :=
  ⟨hs.pcAddress, hs.destAddress, hs.causeIffError, hs.errPcIsPc, hs.memWf⟩

theorem State.Inv.setMem {m : Memory} (hm : m.wf = true) : (s.setMem m).Inv :=
  ⟨hs.pcAddress, hs.destAddress, hs.causeIffError, hs.errPcIsPc, hm⟩

theorem State.Inv.setInDest {a : Word} (ha : 0 ≤ a.toInt) : (s.setInDest a).Inv :=
  ⟨hs.pcAddress, fun _ => ha, hs.causeIffError, hs.errPcIsPc, hs.memWf⟩

/-- in_dest may take a free value where it is not valid. -/
theorem State.Inv.forgetInDest (hst : s.st ≠ .awaitInput) : s.forgetInDest.Inv :=
  ⟨hs.pcAddress, fun h => absurd h hst, hs.causeIffError, hs.errPcIsPc, hs.memWf⟩

/-- Outside ERROR pc may move to any address. -/
theorem State.Inv.setPc (hst : s.st ≠ .error) {q : Word} (hq : 0 ≤ q.toInt) : (s.setPc q).Inv :=
  ⟨hq, hs.destAddress, hs.causeIffError, fun h => absurd h hst, hs.memWf⟩

/-- A change of the control state that neither leaves nor enters ERROR, and finds a destination in AWAIT_INPUT. -/
theorem State.Inv.setSt (hst : s.st ≠ .error) (c : Ctrl) (hc : c ≠ .error)
    (hdest : c = .awaitInput → 0 ≤ s.inDest.toInt) : (s.setSt c).Inv :=
  ⟨hs.pcAddress, hdest, iff_of_true (hs.causeIffError.2 hst) hc, fun h => absurd h hc, hs.memWf⟩

theorem State.Inv.enterError {c : ErrCause} (hc : c ≠ .none) : (s.enterError c).Inv :=
  ⟨hs.pcAddress, nofun, iff_of_false hc (not_not.2 rfl), fun _ => rfl, hs.memWf⟩

theorem State.Inv.onReset : (onReset s).Inv :=
  ⟨le_of_eq rfl, nofun, iff_of_true rfl nofun, nofun, hs.memWf⟩

theorem State.Inv.moveUsed : s.moveUsed.Inv := hs.setHost _

theorem State.Inv.onItsTurn : s.onItsTurn.Inv := by
  unfold State.onItsTurn
  split
  · exact hs.setHost _
  · exact hs.setHost _
  · exact hs

/-- A store at an address keeps memory canonical. -/
theorem State.Inv.store {a : Word} (ha : 0 ≤ a.toInt) (v : Word) : (s.setMem (memPut s.mem a.toNat v)).Inv :=
  hs.setMem (memPut_wf (toNat_le_addrMax ha) hs.memWf)

/-- What an instruction commits keeps the invariant. -/
theorem Commits.inv {i : Instr} {t : State} (hst : s.st ≠ .error) (h : Commits i s t) : t.Inv := by
  have hpc := hs.pcAddress
  cases i with
  | add | mul | lt | eq =>
    obtain ⟨p, a, q, r, -, -, hq, ha, rfl⟩ := h
    exact (hs.store ha r).setPc hst (by omega)
  | jt | jf =>
    obtain ⟨q, hq, rfl⟩ := h
    exact hs.setPc hst hq
  | inp =>
    obtain ⟨a, q, ha, hq, rfl⟩ := h
    exact ((hs.setInDest ha).setSt hst .awaitInput nofun fun _ => ha).setPc nofun (by omega)
  | out =>
    obtain ⟨a, q, hq, rfl⟩ := h
    exact ((hs.setOutVal a).setSt hst .hasOutput nofun nofun).setPc nofun (by omega)
  | arb =>
    obtain ⟨v, q, hq, rfl⟩ := h
    exact (hs.setRb v).setPc hst (by omega)
  | hlt =>
    obtain ⟨q, hq, rfl⟩ := h
    exact (hs.setSt hst .halted nofun nofun).setPc nofun (by omega)

/-- An event of the host answers a next state, and that state has the invariant. -/
theorem onEvent_progress_and_inv (e : HostEvent) : ∃ t, onEvent e s = .next t ∧ t.Inv := by
  obtain ⟨-, hu⟩ | ⟨-, hst, hu⟩ | ⟨v, -, hst, hdest, hu⟩ | ⟨v, -, hst, hneg, -⟩ | ⟨v, -, hst, hu⟩ |
    ⟨a, v, -, -, ha, hu⟩ | ⟨cells, -, -, hu⟩ | hu := onEvent_cases e s
  · exact ⟨_, hu, hs.onReset⟩
  · exact ⟨_, hu, hs.setSt (by simp [hst]) .running nofun nofun⟩
  · have hrun := (hs.store hdest v).setSt (by simp [hst]) .running nofun nofun
    exact ⟨_, hu, hrun.forgetInDest nofun⟩
  · exact absurd (hs.destAddress hst) (not_le.2 hneg)
  · exact ⟨_, hu, hs.forgetOutVal.setSt (by simp [hst]) .running nofun nofun⟩
  · exact ⟨_, hu, hs.store ha v⟩
  · exact ⟨_, hu, hs.setMem (placeCells_wf memWf_nil)⟩
  · exact ⟨s, hu, hs⟩

/-- An instruction answers a next state from every state of the invariant. -/
theorem exec_progress (i : Instr) : ∃ t, exec i s = .next t := by
  obtain ⟨t, ht, -⟩ | ⟨c, -, ht⟩ | ⟨-, hneg⟩ := exec_cases i s
  · exact ⟨t, ht⟩
  · exact ⟨_, ht⟩
  · exact absurd hs.pcAddress (not_le.2 hneg)

/-- The core's step answers a next state from every state of the invariant. -/
theorem runStep_progress : ∃ t, runStep s = .next t := by
  rw [runStep_at hs.pcAddress]
  split
  · exact ⟨_, rfl⟩
  · split
    · exact exec_progress hs _
    · exact ⟨_, rfl⟩

end

/-- Settles O52: the host's events, waiting, the instructions and taking an error each keep the invariant. -/
theorem everyStepKeepsTheInvariant : Obligations.EveryStepKeepsTheInvariant := by
  unfold Obligations.EveryStepKeepsTheInvariant
  intro s t hs h
  obtain ⟨e, -, he⟩ | ⟨-, rfl⟩ | ⟨hst, i, -, hexec⟩ | ⟨-, c, hc, rfl⟩ := step_next_cases h
  · obtain ⟨u, hu, hinv⟩ := onEvent_progress_and_inv hs.moveUsed e
    cases hu.symm.trans he
    exact hinv
  · exact hs.moveUsed
  · obtain hcommits | ⟨c, hc, rfl⟩ := exec_next_cases hexec
    · exact hcommits.inv hs.onItsTurn (by simp [hst])
    · exact hs.onItsTurn.enterError hc
  · exact hs.onItsTurn.enterError hc

/-- Settles O53: whichever of the host, the running core and the waiting core has the step answers a next state. -/
theorem machineNeverGetsStuck : Obligations.MachineNeverGetsStuck := by
  unfold Obligations.MachineNeverGetsStuck
  intro s hs
  cases hev : s.hostEvent with
  | some e =>
    obtain ⟨t, ht, -⟩ := onEvent_progress_and_inv hs.moveUsed e
    exact ⟨t, (step_event hev).trans ht⟩
  | none =>
    by_cases hst : s.st = .running
    · rw [step_running hst hev]
      exact runStep_progress hs.onItsTurn
    · exact ⟨_, step_waiting hst hev⟩

/-- Settles O51: in IDLE the clauses about in_dest and err_pc ask nothing. -/
theorem invariantHoldsAtReset : Obligations.InvariantHoldsAtReset where
  pcAddress := by decide
  destAddress := nofun
  causeIffError := iff_of_true rfl nofun
  errPcIsPc := nofun
  memWf := memWf_nil

/-! The latches that no step reads (10_state.md R17, R18, R19). Each is hidden in the sense of `Hides`. -/

/-- The updates that a transition is made of. -/
inductive TransitionUpdate : (State → State) → Prop where
  | setPc (v : Word) : TransitionUpdate (·.setPc v)
  | setRb (v : Word) : TransitionUpdate (·.setRb v)
  | setSt (c : Ctrl) : TransitionUpdate (·.setSt c)
  | setMem (m : Memory) : TransitionUpdate (·.setMem m)
  | setInDest (v : Word) : TransitionUpdate (·.setInDest v)
  | setOutVal (v : Word) : TransitionUpdate (·.setOutVal v)
  | enterError (c : ErrCause) : TransitionUpdate (·.enterError c)
  | forgetInDest : TransitionUpdate State.forgetInDest
  | forgetOutVal : TransitionUpdate State.forgetOutVal
  | onReset : TransitionUpdate onReset

/-- `g` hides what it overwrites when it leaves what the core reads, and no update carries what it overwrites elsewhere. -/
theorem hides_of_overwrites {g : State → State} (hpc : ∀ s, (g s).pc = s.pc) (hrb : ∀ s, (g s).rb = s.rb)
    (hst : ∀ s, (g s).st = s.st) (hmem : ∀ s, (g s).mem = s.mem)
    (hupdate : ∀ f, TransitionUpdate f → ∀ s, g (f (g s)) = g (f s)) : Hides g :=
  have hcongr {f : State → State} (hf : TransitionUpdate f) {a b : State} (hab : g a = g b) : g (f a) = g (f b) := by
    rw [← hupdate f hf a, hab, hupdate f hf b]
  { pc := fun hab => by rw [← hpc, hab, hpc]
    rb := fun hab => by rw [← hrb, hab, hrb]
    st := fun hab => by rw [← hst, hab, hst]
    mem := fun hab => by rw [← hmem, hab, hmem]
    setPc := fun v => hcongr (.setPc v)
    setRb := fun v => hcongr (.setRb v)
    setSt := fun c => hcongr (.setSt c)
    setMem := fun m => hcongr (.setMem m)
    setInDest := fun v => hcongr (.setInDest v)
    setOutVal := fun v => hcongr (.setOutVal v)
    enterError := fun c => hcongr (.enterError c)
    forgetInDest := hcongr .forgetInDest
    forgetOutVal := hcongr .forgetOutVal
    onReset := hcongr .onReset }

theorem hides_inDest : Hides (·.setInDest 0) :=
  hides_of_overwrites (fun _ => rfl) (fun _ => rfl) (fun _ => rfl) (fun _ => rfl) fun _ hf _ => by cases hf <;> rfl

theorem hides_outVal : Hides (·.setOutVal 0) :=
  hides_of_overwrites (fun _ => rfl) (fun _ => rfl) (fun _ => rfl) (fun _ => rfl) fun _ hf _ => by cases hf <;> rfl

theorem hides_errPc : Hides (·.setErrPc 0) :=
  hides_of_overwrites (fun _ => rfl) (fun _ => rfl) (fun _ => rfl) (fun _ => rfl) fun _ hf _ => by cases hf <;> rfl

/-- Two states that differ in a hidden part alone, the host's moves being the same, step alike. -/
theorem step_sameUpTo {g : State → State} (hg : Hides g) {a b : State} (hhost : a.host = b.host)
    (hab : ∀ r, g (a.setHost r) = g (b.setHost r)) (hdest : b.st = .awaitInput → a.inDest = b.inDest) :
    sameUpTo g (step a) (step b) := by
  have hst : a.st = b.st := hg.st (a := a.setHost []) (b := b.setHost []) (hab [])
  have hmove : nextMove a = nextMove b := by simp only [nextMove, hhost, hst]
  unfold step transition
  rw [hmove]
  exact transitionOn_sameUpTo hg (hab (nextMove b).2) hdest (nextMove b).1

/-- Settles O35: each of the three latches is hidden, in_dest where no resume reads it. -/
theorem invalidLatchesAreNeverRead : Obligations.InvalidLatchesAreNeverRead := by
  unfold Obligations.InvalidLatchesAreNeverRead
  intro s v
  refine ⟨fun hst => ?_, ?_, ?_⟩
  · exact step_sameUpTo hides_inDest rfl (fun _ => rfl) fun h => absurd h hst
  · exact step_sameUpTo hides_outVal rfl (fun _ => rfl) fun _ => rfl
  · exact step_sameUpTo hides_errPc rfl (fun _ => rfl) fun _ => rfl

/-! Reset and the host's view. -/

/-- Settles O47: the fields of `State.reset`; its memory lists no cell. -/
theorem resetStateHasTheStatedValues : Obligations.ResetStateHasTheStatedValues :=
  ⟨rfl, rfl, rfl, rfl, fun _ => rfl⟩

theorem hostView_of_running {s : State} (hst : s.st = .running) : hostView s = ⟨.running, none, none, none, none⟩ := by
  simp [hostView, hst]

/-- A latch that is shown in the control state `c` only is seen exactly there. -/
theorem shownOnlyIn_eq_some {c : Ctrl} {s : State} {latch v : Word} :
    (if s.st = c then some latch else none) = some v ↔ s.st = c ∧ latch = v := by
  rw [Option.ite_none_right_eq_some, Option.some_inj]

theorem hostPeek_eq_some {s : State} {a v : Word} :
    hostPeek s a = some v ↔ (s.st = .idle ∨ s.st = .halted) ∧ 0 ≤ a.toInt ∧ memGet s.mem a.toNat = v := by
  rw [hostPeek, Option.ite_none_right_eq_some, Option.some_inj, and_assoc]

/-- Settles O50: each output of `hostView` is guarded by its own state. -/
theorem hostSeesOnlyWhatTheStateOffers : Obligations.HostSeesOnlyWhatTheStateOffers := by
  unfold Obligations.HostSeesOnlyWhatTheStateOffers
  intro s
  exact ⟨hostView_of_running, fun hst => if_neg hst, rfl, fun _ => shownOnlyIn_eq_some, fun _ => shownOnlyIn_eq_some,
    fun _ => shownOnlyIn_eq_some, fun _ _ => hostPeek_eq_some⟩

end Sys2Proof.Machine

/-! Memory: what reads give after writes and loads, that a canonical list is determined by its reads, what the storing
instructions write, and the frame of memory over every instruction and every step. -/

namespace Sys2Proof.Machine

/-! Cells (20_memory.md R31, R35). -/

/-- Reading a cell after a write: the value written at its address, what was there at every other. -/
theorem readCell_setMem_memPut {s : State} (hwf : s.mem.wf = true) {a b : Word} (hb : 0 ≤ b.toInt) (v : Word) :
    readCell (s.setMem (memPut s.mem a.toNat v)) b = .ok (if b = a then v else memGet s.mem b.toNat) := by
  rw [readCell_ok hb, State.setMem_mem, memGet_memPut hwf]
  simp only [BitVec.toNat_inj]

/-- Settles O8: at an address a write and a read both succeed, and the read has two cases. -/
theorem readAfterWriteGivesTheValueWritten : Obligations.ReadAfterWriteGivesTheValueWritten := by
  unfold Obligations.ReadAfterWriteGivesTheValueWritten
  intro s a v hwf ha
  refine ⟨_, writeCell_ok ha, ?_, fun b hb hba => ?_, fun b hb => ⟨_, readCell_ok hb⟩⟩
  · rw [readCell_setMem_memPut hwf ha, if_pos rfl]
  · rw [readCell_setMem_memPut hwf hb, if_neg hba, readCell_ok hb]

/-- Writes elsewhere leave a cell as it was. -/
theorem memGet_foldl_memPut_of_ne {a : Nat} {writes : List (Nat × Word)} {m : Memory} (hwf : m.wf = true)
    (h : ∀ p ∈ writes, p.1 ≤ Config.addrMax ∧ p.1 ≠ a) :
    memGet (writes.foldl (fun m p => memPut m p.1 p.2) m) a = memGet m a := by
  induction writes generalizing m with
  | nil => rfl
  | cons p ps ih =>
    obtain ⟨⟨hmax, hne⟩, hps⟩ := List.forall_mem_cons.1 h
    rw [List.foldl_cons, ih (memPut_wf hmax hwf) hps, memGet_memPut hwf, if_neg hne.symm]

/-- Settles O9: the writes leave the cell, which the empty memory reads as 0. -/
theorem neverWrittenCellReadsZero : Obligations.NeverWrittenCellReadsZero := by
  unfold Obligations.NeverWrittenCellReadsZero
  intro writes a h
  exact memGet_foldl_memPut_of_ne memWf_nil h

/-! The canonical form is determined by the reads (20_memory.md R31, R36; log entry 2). -/

theorem memGet_cons_self (k : Nat) (v : Word) (r : Memory) : memGet ((k, v) :: r) k = v := by
  simp [memGet]

theorem memGet_cons_of_gt {k a : Nat} (h : k < a) (v : Word) (r : Memory) : memGet ((k, v) :: r) a = memGet r a := by
  rw [memGet, if_neg (by omega), if_neg (by omega)]

/-- Where two canonical lists read alike, the first address of the one is not below the first address of the other: the
value there is not 0. -/
theorem head_not_below_of_memGet_eq {lo k lo' : Nat} {v : Word} {r m : Memory}
    (h : Memory.wfFrom lo ((k, v) :: r) = true) (h' : Memory.wfFrom lo' m = true)
    (heq : ∀ a ≤ Config.addrMax, memGet ((k, v) :: r) a = memGet m a) : lo' ≤ k := by
  obtain ⟨-, hk, hv, -⟩ := wfFrom_cons.1 h
  by_contra hlt
  exact hv (by rw [← memGet_cons_self k v r, heq k hk, memGet_below h' (not_le.1 hlt)])

theorem eq_of_memGet_eq_from {lo lo' : Nat} {m m' : Memory} (h : Memory.wfFrom lo m = true)
    (h' : Memory.wfFrom lo' m' = true) (heq : ∀ a ≤ Config.addrMax, memGet m a = memGet m' a) : m = m' := by
  induction m generalizing lo lo' m' with
  | nil =>
    cases m' with
    | nil => rfl
    | cons p' r' =>
      obtain ⟨-, hk', hv', -⟩ := wfFrom_cons.1 h'
      exact absurd ((memGet_cons_self _ _ r').symm.trans (heq _ hk').symm) hv'
  | cons p r ih =>
    obtain ⟨k, v⟩ := p
    obtain ⟨-, hk, hv, hr⟩ := wfFrom_cons.1 h
    cases m' with
    | nil => exact absurd ((memGet_cons_self k v r).symm.trans (heq k hk)) hv
    | cons p' r' =>
      obtain ⟨k', v'⟩ := p'
      obtain ⟨-, hk', hv', hr'⟩ := wfFrom_cons.1 h'
      have hle := head_not_below_of_memGet_eq h (wfFrom_cons.2 ⟨le_rfl, hk', hv', hr'⟩) heq
      have hge := head_not_below_of_memGet_eq h' (wfFrom_cons.2 ⟨le_rfl, hk, hv, hr⟩) fun a ha => (heq a ha).symm
      obtain rfl : k = k' := le_antisymm hge hle
      obtain rfl : v = v' := by simpa only [memGet_cons_self] using heq k hk
      have htail : r = r' := ih hr hr' fun a ha => by
        by_cases hka : k < a
        · simpa only [memGet_cons_of_gt hka] using heq a ha
        · rw [memGet_below hr (by omega), memGet_below hr' (by omega)]
      rw [htail]

/-- Settles O10: first entries of lists that read alike are the same, and so the rests read alike. -/
theorem memoriesThatReadAlikeAreEqual : Obligations.MemoriesThatReadAlikeAreEqual := by
  unfold Obligations.MemoriesThatReadAlikeAreEqual
  intro m m' h h' heq
  exact eq_of_memGet_eq_from h h' heq

/-! The host's writes in IDLE (20_memory.md R44; 70_reset_and_hazards.md R172). -/

/-- Placed cells, none of them beyond ADDR_MAX: the placed value inside their range, what was there outside it. -/
theorem memGet_placeCells {lo : Nat} {vs : List Word} {m : Memory} (hwf : m.wf = true)
    (hfit : lo + vs.length ≤ Config.addrMax + 1) (a : Nat) :
    memGet (placeCells lo vs m) a = if lo ≤ a ∧ a < lo + vs.length then vs.getD (a - lo) 0 else memGet m a := by
  induction vs generalizing lo m with
  | nil => rw [placeCells, if_neg (by simp only [List.length_nil]; omega)]
  | cons v vs ih =>
    rw [List.length_cons] at hfit ⊢
    have hlo : lo ≤ Config.addrMax := by omega
    rw [placeCells, if_pos hlo, ih (memPut_wf hlo hwf) (by omega), memGet_memPut hwf]
    by_cases hfirst : a = lo
    · subst hfirst
      rw [if_neg (by omega), if_pos rfl, if_pos (by omega), Nat.sub_self, List.getD_cons_zero]
    · by_cases hin : lo + 1 ≤ a ∧ a < lo + 1 + vs.length
      · have hidx : a - lo = a - (lo + 1) + 1 := by omega
        rw [if_pos hin, if_pos (by omega), hidx, List.getD_cons_succ]
      · rw [if_neg hin, if_neg hfirst, if_neg (by omega)]

/-- A program placed in the empty memory: the cell at `a` reads its `a`-th value, and 0 beyond its end. -/
theorem memGet_placeCells_zero_nil {cells : List Word} (hfit : cells.length ≤ Config.addrMax + 1) (a : Nat) :
    memGet (placeCells 0 cells []) a = cells.getD a 0 := by
  rw [memGet_placeCells memWf_nil (by omega)]
  split
  · rfl
  · rw [List.getD_eq_default _ _ (by omega)]
    rfl

theorem onEvent_load_of_idle {s : State} (hst : s.st = .idle) (cells : List Word) :
    onEvent (.load cells) s = .next (s.setMem (placeCells 0 cells [])) := by
  simp only [onEvent, onLoad, if_pos hst]

theorem onEvent_poke_of_idle {s : State} (hst : s.st = .idle) {a : Word} (ha : 0 ≤ a.toInt) (v : Word) :
    onEvent (.poke a v) s = .next (s.setMem (memPut s.mem a.toNat v)) := by
  simp only [onEvent, onPoke, if_pos (And.intro hst ha)]

/-- Settles O11: a load is placed in the empty memory, a poke is one write. -/
theorem loadedProgramStandsFromAddressZero : Obligations.LoadedProgramStandsFromAddressZero := by
  unfold Obligations.LoadedProgramStandsFromAddressZero
  constructor
  · intro s cells hst hfit
    exact ⟨_, onEvent_load_of_idle hst cells, rfl, placeCells_wf memWf_nil, memGet_placeCells_zero_nil hfit⟩
  · intro s a v hst hwf ha
    refine ⟨_, onEvent_poke_of_idle hst ha v, rfl, ?_, fun b hb => ?_⟩
    · rw [State.setMem_mem, memGet_memPut hwf, if_pos rfl]
    · rw [State.setMem_mem, memGet_memPut hwf, if_neg hb]

/-! What the storing instructions complete with (41_arithmetic.md, 44_compare.md; 20_memory.md R41). -/

/-- The next state of a storing instruction that completes with the result `r`. -/
def State.stored (s : State) (m2 : ModeDigit) (r : Word) : State :=
  (s.setMem (memPut s.mem (s.ea m2 (s.param 2)).toNat r)).setPc (s.pcPlus 4)

/-- Format F3IIO with every parameter resolvable completes with what the operation answers. -/
theorem threeParam_of_resolvable {s : State} {m0 m1 m2 : ModeDigit} (hfit : s.cellsFit 4)
    (h0 : s.readable m0 (s.param 0)) (h1 : s.readable m1 (s.param 1)) (h2 : s.writable m2 (s.param 2))
    {op : Word → Word → Res Word} {r : Word} (hop : op (s.inValue m0 (s.param 0)) (s.inValue m1 (s.param 1)) = .ok r) :
    threeParam op m0 m1 m2 s = .ok (s.stored m2 r) := by
  obtain ⟨hpc, hmax⟩ := hfit
  push_cast at hmax
  have hno : ∀ k : Nat, k ≤ 2 → s.pc.toInt + 1 + k ≠ Config.maxW := by omega
  have e : errorIf (s.pc.toInt = Config.maxW) .arithmeticOverflow = [] := errorIf_eq_nil.2 (by omega)
  have e0 : s.inErrors 0 m0 = [] := inErrors_eq_nil.2 ⟨hno 0 (by omega), h0⟩
  have e1 : s.inErrors 1 m1 = [] := inErrors_eq_nil.2 ⟨hno 1 (by omega), h1⟩
  have e2 : s.outErrors 2 m2 = [] := outErrors_eq_nil.2 ⟨hno 2 (by omega), h2⟩
  rw [threeParam_at hpc, e, e0, e1, e2, hop, Res.bind_ok]
  rfl

/-- `fit` of a word's integer is the word. -/
theorem fit_of_toInt_eq {r : Word} {v : Int} (h : r.toInt = v) : fit v = .ok r := h ▸ fit_toInt r

section
variable {s : State} {m0 m1 m2 : ModeDigit} (hfit : s.cellsFit 4) (h0 : s.readable m0 (s.param 0))
  (h1 : s.readable m1 (s.param 1)) (h2 : s.writable m2 (s.param 2))
include hfit h0 h1 h2

theorem exec_add_of_resolvable {r : Word}
    (hr : r.toInt = (s.inValue m0 (s.param 0)).toInt + (s.inValue m1 (s.param 1)).toInt) :
    exec (.add m0 m1 m2) s = .next (s.stored m2 r) := by
  rw [exec, execAdd, threeParam_of_resolvable hfit h0 h1 h2 (fit_of_toInt_eq hr), finish_ok]

theorem exec_mul_of_resolvable {r : Word}
    (hr : r.toInt = (s.inValue m0 (s.param 0)).toInt * (s.inValue m1 (s.param 1)).toInt) :
    exec (.mul m0 m1 m2) s = .next (s.stored m2 r) := by
  rw [exec, execMul, threeParam_of_resolvable hfit h0 h1 h2 (fit_of_toInt_eq hr), finish_ok]

theorem exec_lt_of_resolvable : exec (.lt m0 m1 m2) s =
    .next (s.stored m2 (if (s.inValue m0 (s.param 0)).toInt < (s.inValue m1 (s.param 1)).toInt then 1 else 0)) := by
  rw [exec, execLt, threeParam_of_resolvable hfit h0 h1 h2 rfl, finish_ok]
  simp only [truthWord, lessThan, decide_eq_true_eq]

theorem exec_eq_of_resolvable : exec (.eq m0 m1 m2) s =
    .next (s.stored m2 (if (s.inValue m0 (s.param 0)).toInt = (s.inValue m1 (s.param 1)).toInt then 1 else 0)) := by
  rw [exec, execEq, threeParam_of_resolvable hfit h0 h1 h2 rfl, finish_ok]
  simp only [truthWord, equals, decide_eq_true_eq, BitVec.toInt_inj]

end

/-- Settles O15: a result inside Int_W is a word's integer, and with it both instructions complete. -/
theorem addAndMulWriteTheExactResult : Obligations.AddAndMulWriteTheExactResult := by
  unfold Obligations.AddAndMulWriteTheExactResult
  intro s m0 m1 m2 hfit h0 h1 h2
  constructor
  · rintro ⟨hmin, hmax⟩
    have hr := toInt_ofInt hmin hmax
    exact ⟨_, hr, exec_add_of_resolvable hfit h0 h1 h2 hr⟩
  · rintro ⟨hmin, hmax⟩
    have hr := toInt_ofInt hmin hmax
    exact ⟨_, hr, exec_mul_of_resolvable hfit h0 h1 h2 hr⟩

/-- Settles O16: the comparison itself raises nothing. -/
theorem ltAndEqWriteOneOrZero : Obligations.LtAndEqWriteOneOrZero := by
  unfold Obligations.LtAndEqWriteOneOrZero
  intro s m0 m1 m2 hfit h0 h1 h2
  exact ⟨exec_lt_of_resolvable hfit h0 h1 h2, exec_eq_of_resolvable hfit h0 h1 h2⟩

/-! Self-modification (20_memory.md R43). -/

/-- Below ADDR_MAX the fetch answers the instruction that the word at pc decodes to. -/
theorem fetchDecode_of_decode {s : State} {i : Instr} (hpc : 0 ≤ s.pc.toInt) (hmax : s.pc.toInt < Config.maxW)
    (h : decode s.word = .instr i) : fetchDecode s = .ok i := by
  rw [State.word] at h
  simp only [fetchDecode, readCell_ok hpc, advance_ok hmax, Res.bind_ok, h, checkDigits_eq]

/-- A result stored at pc + 4 is the word at the new pc. -/
theorem stored_word {s : State} {m2 : ModeDigit} (hwf : s.mem.wf = true) (hfit : s.cellsFit 4)
    (htarget : s.ea m2 (s.param 2) = s.pc.toInt + 4) (r : Word) : (s.stored m2 r).word = r := by
  have hpc4 : (s.pcPlus 4).toInt = s.pc.toInt + 4 := pcPlus_toInt hfit
  have haddr : (s.pcPlus 4).toNat = (s.ea m2 (s.param 2)).toNat := by
    have := toNat_of_nonneg (w := s.pcPlus 4) (by omega)
    omega
  rw [State.word, State.stored, State.setPc_mem, State.setMem_mem, State.setPc_pc, memGet_memPut hwf, if_pos haddr]

/-- Settles O23: the sum is the word at the new pc, and the fetch there decodes that word. -/
theorem storedWordIsTheNextInstruction : Obligations.StoredWordIsTheNextInstruction := by
  unfold Obligations.StoredWordIsTheNextInstruction
  intro s m0 m1 m2 r hwf hmax hpc h0 h1 h2 htarget hr
  have hfit : s.cellsFit 4 := ⟨hpc, by push_cast; omega⟩
  have hword := stored_word hwf hfit htarget r
  have hpc4 : (s.stored m2 r).pc.toInt = s.pc.toInt + 4 := pcPlus_toInt hfit
  exact ⟨s.stored m2 r, exec_add_of_resolvable hfit h0 h1 h2 hr, rfl, hword,
    fun i hi => fetchDecode_of_decode (by omega) (by omega) (hword.symm ▸ hi)⟩

/-! The frame of memory (20_memory.md R39, R40, R41, R44, R45). -/

/-- The one write of a storing instruction is at the target that parameter 2 resolves to at pc + 3. -/
theorem CommitsStore.mem {m2 : ModeDigit} {s t : State} (h : CommitsStore m2 s t) :
    ∃ a q r, resolveOut s m2 (s.pcPlus 3) = .ok (a, q) ∧ t.mem = memPut s.mem a.toNat r := by
  obtain ⟨p, a, q, r, hresolve, hp, -, -, rfl⟩ := h
  exact ⟨a, q, r, eq_pcPlus (n := 3) hp ▸ hresolve, rfl⟩

/-- Settles O32: an instruction that completes writes at the resolved target, and taking an error writes no memory. -/
theorem storingInstructionsWriteOnlyTheirTarget : Obligations.StoringInstructionsWriteOnlyTheirTarget := by
  unfold Obligations.StoringInstructionsWriteOnlyTheirTarget
  intro i m0 m1 m2 s t hi hwf h
  obtain hcommits | ⟨c, -, rfl⟩ := exec_next_cases h
  · have hstore : CommitsStore m2 s t := by obtain rfl | rfl | rfl | rfl := hi <;> exact hcommits
    obtain ⟨a, q, r, hresolve, hmem⟩ := hstore.mem
    rw [hresolve]
    intro b hb
    rw [hmem, memGet_memPut hwf, if_neg hb]
  · split
    · exact fun _ _ => rfl
    · exact fun _ => rfl

/-- What an instruction commits leaves memory, unless it is `add`, `mul`, `lt` or `eq`. -/
theorem Commits.mem_eq {i : Instr} {s t : State} (hcode : i.code ∉ [1, 2, 7, 8]) (h : Commits i s t) :
    t.mem = s.mem := by
  cases i with
  | add | mul | lt | eq => simp [Instr.code] at hcode
  | jt | jf =>
    obtain ⟨q, -, rfl⟩ := h
    rfl
  | inp =>
    obtain ⟨a, q, -, -, rfl⟩ := h
    rfl
  | out | arb =>
    obtain ⟨v, q, -, rfl⟩ := h
    rfl
  | hlt =>
    obtain ⟨q, -, rfl⟩ := h
    rfl

/-- No instruction but `add`, `mul`, `lt` and `eq` writes memory. -/
theorem exec_mem_eq {i : Instr} {s t : State} (hcode : i.code ∉ [1, 2, 7, 8]) (h : exec i s = .next t) :
    t.mem = s.mem := by
  obtain hcommits | ⟨c, -, rfl⟩ := exec_next_cases h
  · exact hcommits.mem_eq hcode
  · rfl

/-- Settles O33: the six codes are none of the four that store. -/
theorem otherInstructionsWriteNoMemory : Obligations.OtherInstructionsWriteNoMemory := by
  unfold Obligations.OtherInstructionsWriteNoMemory
  intro i s t hcode h b
  have hother : i.code ∉ [1, 2, 7, 8] := by
    simp only [List.mem_cons, List.not_mem_nil, or_false] at hcode ⊢
    omega
  rw [exec_mem_eq hother h]

/-- The events of the host that write memory: a resume from AWAIT_INPUT, and a poke or a load in IDLE. -/
theorem onEvent_mem_cases {e : HostEvent} {s t : State} (h : onEvent e s = .next t) :
    t.mem = s.mem ∨ (s.st = .awaitInput ∧ ∃ v, e = .resume v) ∨
    (s.st = .idle ∧ ((∃ a v, e = .poke a v) ∨ ∃ cells, e = .load cells)) := by
  obtain ⟨-, hu⟩ | ⟨-, -, hu⟩ | ⟨v, he, hst, -⟩ | ⟨v, he, hst, -⟩ | ⟨v, -, -, hu⟩ | ⟨a, v, he, hst, -⟩ |
    ⟨cells, he, hst, -⟩ | hu := onEvent_cases e s
  · exact .inl (by cases hu.symm.trans h; rfl)
  · exact .inl (by cases hu.symm.trans h; rfl)
  · exact .inr (.inl ⟨hst, v, he⟩)
  · exact .inr (.inl ⟨hst, v, he⟩)
  · exact .inl (by cases hu.symm.trans h; rfl)
  · exact .inr (.inr ⟨hst, .inl ⟨a, v, he⟩⟩)
  · exact .inr (.inr ⟨hst, .inr ⟨cells, he⟩⟩)
  · exact .inl (by cases hu.symm.trans h; rfl)

/-- Settles O46: of the host's events the three named write memory, of the instructions the four that store, and neither
waiting nor taking an error does. -/
theorem memoryChangesOnlyByStoreResumeOrHostWrite : Obligations.MemoryChangesOnlyByStoreResumeOrHostWrite := by
  unfold Obligations.MemoryChangesOnlyByStoreResumeOrHostWrite
  intro s t h hmem
  obtain ⟨e, hev, he⟩ | ⟨-, rfl⟩ | ⟨hst, i, hdec, hexec⟩ | ⟨-, c, -, rfl⟩ := step_next_cases h
  · obtain hkept | ⟨hst, v, rfl⟩ | ⟨hst, hwrite⟩ := onEvent_mem_cases he
    · exact absurd hkept hmem
    · exact .inr (.inl ⟨hst, v, hev⟩)
    · refine .inr (.inr ⟨hst, ?_⟩)
      obtain ⟨a, v, rfl⟩ | ⟨cells, rfl⟩ := hwrite
      · exact .inl ⟨a, v, hev⟩
      · exact .inr ⟨cells, hev⟩
  · exact absurd rfl hmem
  · refine .inl ⟨hst, i, hdec, ?_⟩
    by_contra hcode
    exact hmem ((exec_mem_eq hcode hexec).trans (onItsTurn_mem s))
  · exact absurd (onItsTurn_mem s) hmem

end Sys2Proof.Machine

/-! Encoding (30_encoding.md): the decoder characterised once, as the relation between a number and the code and mode digits
of an instruction; that relation gives the round trip with the encoder, which words are instructions, and which digits of a
word play no part. -/

namespace Sys2Proof.Machine

/-! Decimal digits (00_scope.md R6). -/

theorem digit_zero_add (d : ModeDigit) (v : Nat) : digit (d.val + 10 * v) 0 = d := by
  apply Fin.ext
  simp only [digit, pow_zero, Nat.div_one]
  omega

/-- A digit above the least significant one is a digit of the rest. -/
theorem digit_succ_add (d : ModeDigit) (v j : Nat) : digit (d.val + 10 * v) (j + 1) = digit v j := by
  have hdiv : (d.val + 10 * v) / 10 = v := by omega
  simp only [digit, pow_succ', ← Nat.div_div_eq_div_mul, hdiv]

/-- The digits of a list's decimal number are the list. -/
theorem map_digit_digitsValue (ds : List ModeDigit) : (List.range ds.length).map (digit (digitsValue ds)) = ds := by
  induction ds with
  | nil => rfl
  | cons d ds ih =>
    rw [List.length_cons, List.range_succ_eq_map, List.map_cons, List.map_map, digitsValue, digit_zero_add]
    exact congrArg (d :: ·) ((List.map_congr_left fun j _ => digit_succ_add d _ j).trans ih)

theorem digitsValue_lt (ds : List ModeDigit) : digitsValue ds < 10 ^ ds.length := by
  induction ds with
  | nil => exact Nat.one_pos
  | cons d ds ih =>
    rw [digitsValue, List.length_cons, pow_succ]
    omega

/-- Digit `j` is read off the last `j + 1` digits. -/
theorem digit_eq_mod_div (w j : Nat) : (digit w j).val = w % 10 ^ (j + 1) / 10 ^ j := by
  rw [pow_succ, Nat.mod_mul_right_div_self]
  rfl

/-- Words that agree on their last digits have the same mode digits there. -/
theorem modeDigit_eq_of_mod_eq {w w' n k : Nat} (hk : k < n) (h : w' % 10 ^ (2 + n) = w % 10 ^ (2 + n)) :
    modeDigit w' k = modeDigit w k := by
  have hlow : w' % 10 ^ (k + 2 + 1) = w % 10 ^ (k + 2 + 1) := Nat.ModEq.of_dvd (pow_dvd_pow 10 (by omega)) h
  exact Fin.ext (by rw [modeDigit, modeDigit, digit_eq_mod_div, digit_eq_mod_div, hlow])

/-- Above a two-digit code stand the digits of the rest. -/
theorem modeDigit_code_add {c : Nat} (hc : c < 100) (v k : Nat) : modeDigit (c + 100 * v) k = digit v k := by
  have hdiv : (c + 100 * v) / 10 ^ 2 = v := by omega
  simp only [modeDigit, digit, pow_add 10 k 2, mul_comm (10 ^ k), ← Nat.div_div_eq_div_mul, hdiv]

/-! The instruction's own table (30_encoding.md R55, R57). -/

/-- The ten instruction codes, as the obligations list them (30_encoding.md R57). -/
theorem code_mem (i : Instr) : i.code ∈ [1, 2, 3, 4, 5, 6, 7, 8, 9, 99] := by
  cases i <;> simp [Instr.code]

theorem code_lt (i : Instr) : i.code < 100 :=
  (by decide : ∀ c ∈ [1, 2, 3, 4, 5, 6, 7, 8, 9, 99], c < 100) i.code (code_mem i)

theorem length_digits_le (i : Instr) : i.digits.length ≤ 3 := by
  cases i <;> simp [Instr.digits]

/-! The decoder. -/

/-- A number decodes to `i` exactly when its last two digits are the code of `i` and the digits above them, one for each
parameter of `i`, are the mode digits of `i`. -/
theorem decodeNat_eq_instr {w : Nat} {i : Instr} :
    decodeNat w = .instr i ↔ i.code = w % 100 ∧ (List.range i.digits.length).map (modeDigit w) = i.digits := by
  constructor
  · intro h
    unfold decodeNat at h
    split at h <;> cases h <;> exact ⟨Eq.symm ‹_›, rfl⟩
  · rintro ⟨hcode, hdigits⟩
    unfold decodeNat
    rw [← hcode]
    cases i with
    | add m0 m1 m2 | mul m0 m1 m2 | lt m0 m1 m2 | eq m0 m1 m2 =>
      obtain ⟨rfl, rfl, rfl⟩ : modeDigit w 0 = m0 ∧ modeDigit w 1 = m1 ∧ modeDigit w 2 = m2 := by
        simpa [Instr.digits, List.range_succ] using hdigits
      rfl
    | jt m0 m1 | jf m0 m1 =>
      obtain ⟨rfl, rfl⟩ : modeDigit w 0 = m0 ∧ modeDigit w 1 = m1 := by
        simpa [Instr.digits, List.range_succ] using hdigits
      rfl
    | inp m0 | out m0 | arb m0 =>
      obtain rfl : modeDigit w 0 = m0 := by simpa [Instr.digits] using hdigits
      rfl
    | hlt => rfl

/-- A number decodes to an instruction exactly when its last two digits are one of the ten codes. -/
theorem exists_decodeNat_eq_instr {w : Nat} :
    (∃ i, decodeNat w = .instr i) ↔ w % 100 ∈ [1, 2, 3, 4, 5, 6, 7, 8, 9, 99] := by
  constructor
  · rintro ⟨i, h⟩
    exact (decodeNat_eq_instr.1 h).1 ▸ code_mem i
  · intro h
    simp only [List.mem_cons, List.not_mem_nil, or_false] at h
    unfold decodeNat
    obtain h | h | h | h | h | h | h | h | h | h := h <;> rw [h] <;> exact ⟨_, rfl⟩

/-- A number that agrees with `w` on the code and on the mode digits that the instruction in `w` has decodes like `w`. -/
theorem decodeNat_of_mod_eq {w w' : Nat} {i : Instr} (h : decodeNat w = .instr i)
    (hmod : w' % 10 ^ (2 + i.digits.length) = w % 10 ^ (2 + i.digits.length)) : decodeNat w' = .instr i := by
  obtain ⟨hcode, hdigits⟩ := decodeNat_eq_instr.1 h
  have hlow : w' % 100 = w % 100 := Nat.ModEq.of_dvd (pow_dvd_pow 10 (Nat.le_add_right 2 _)) hmod
  refine decodeNat_eq_instr.2 ⟨hcode.trans hlow.symm, .trans ?_ hdigits⟩
  exact List.map_congr_left fun k hk => modeDigit_eq_of_mod_eq (List.mem_range.1 hk) hmod

/-- The decoder reads an instruction back from its canonical word as a number. -/
theorem decodeNat_wordValue (i : Instr) : decodeNat i.wordValue = .instr i := by
  have hcode := code_lt i
  refine decodeNat_eq_instr.2 ⟨by rw [Instr.wordValue]; omega, .trans ?_ (map_digit_digitsValue i.digits)⟩
  exact List.map_congr_left fun k _ => modeDigit_code_add hcode (digitsValue i.digits) k

theorem decode_eq_instr {w : Word} {i : Instr} :
    decode w = .instr i ↔ 0 ≤ w.toInt ∧ decodeNat w.toNat = .instr i := by
  rw [decode_eq]
  split
  · exact iff_of_false nofun fun h => absurd h.1 (not_le.2 ‹_›)
  · exact (and_iff_right (not_lt.1 ‹_›)).symm

theorem decode_eq_negativeWord {w : Word} : decode w = .refused .negativeWord ↔ w.toInt < 0 := by
  rw [decode_eq]
  split
  · exact iff_of_true rfl ‹_›
  · refine iff_of_false ?_ ‹_›
    unfold decodeNat
    split <;> nofun

theorem exists_decode_eq_instr {w : Word} :
    (∃ i, decode w = .instr i) ↔ 0 ≤ w.toInt ∧ w.toNat % 100 ∈ [1, 2, 3, 4, 5, 6, 7, 8, 9, 99] := by
  simp only [decode_eq_instr, exists_and_left, exists_decodeNat_eq_instr]

/-! The encoder (30_encoding.md R61). -/

/-- No canonical word, its mode digits legal or not, has more than five digits. -/
theorem wordValue_lt (i : Instr) : i.wordValue < 100000 := by
  have hcode := code_lt i
  have hdigits : digitsValue i.digits < 1000 :=
    (digitsValue_lt i.digits).trans_le (Nat.pow_le_pow_right (by decide) (length_digits_le i))
  rw [Instr.wordValue]
  omega

/-- The cell holds the canonical word unchanged. -/
theorem toNat_encode (i : Instr) : (encode i).toNat = i.wordValue := by
  rw [encode, BitVec.toNat_ofNat]
  exact Nat.mod_eq_of_lt ((wordValue_lt i).trans (by decide))

theorem toInt_encode_nonneg (i : Instr) : 0 ≤ (encode i).toInt := by
  have hlt : 2 * (encode i).toNat < 2 ^ Config.W := by
    have := wordValue_lt i
    rw [toNat_encode, two_pow_W]
    omega
  rw [BitVec.toInt_eq_toNat_of_lt hlt]
  exact Int.natCast_nonneg _

/-- Settles O1: the canonical word is not negative, and as a number it decodes to its instruction. -/
theorem decodeInvertsEncode : Obligations.DecodeInvertsEncode := by
  unfold Obligations.DecodeInvertsEncode
  intro i
  exact decode_eq_instr.2 ⟨toInt_encode_nonneg i, toNat_encode i ▸ decodeNat_wordValue i⟩

/-- Settles O2: the two refusals are the negative word and the code that names no instruction. -/
theorem decodeAcceptsExactlyTheTenCodes : Obligations.DecodeAcceptsExactlyTheTenCodes := by
  unfold Obligations.DecodeAcceptsExactlyTheTenCodes
  intro w
  exact ⟨exists_decode_eq_instr, decode_eq_negativeWord⟩

/-- The mode digits of a decoded instruction, one by one. -/
theorem modeDigit_of_decodeNat {w k : Nat} {i : Instr} {d : ModeDigit} (h : decodeNat w = .instr i)
    (hd : i.digits[k]? = some d) : modeDigit w k = d := by
  obtain ⟨hk, -⟩ := List.getElem?_eq_some_iff.1 hd
  rw [← (decodeNat_eq_instr.1 h).2, List.getElem?_map, List.getElem?_range hk] at hd
  exact Option.some.inj hd

/-- Settles O4: the code and the mode digits that the instruction has are within the digits that agree. -/
theorem unexaminedDigitsHaveNoEffect : Obligations.UnexaminedDigitsHaveNoEffect := by
  unfold Obligations.UnexaminedDigitsHaveNoEffect
  intro w w' i h hw' hmod
  exact decode_eq_instr.2 ⟨hw', decodeNat_of_mod_eq (decode_eq_instr.1 h).2 hmod⟩

/-- Settles O3: the fields are those of `decodeNat_eq_instr`, and no instruction has more than three mode digits. -/
theorem decodedFieldsAreTheDecimalDigits : Obligations.DecodedFieldsAreTheDecimalDigits := by
  unfold Obligations.DecodedFieldsAreTheDecimalDigits
  constructor
  · intro w i h
    obtain ⟨-, hdec⟩ := decode_eq_instr.1 h
    refine ⟨(decodeNat_eq_instr.1 hdec).1, fun k d hd => ?_⟩
    have hval : d.val = w.toNat / 10 ^ (k + 2) % 10 := congrArg Fin.val (modeDigit_of_decodeNat hdec hd).symm
    exact ⟨hval, fun hlt => by rw [hval, Nat.div_eq_of_lt hlt]⟩
  · intro w w' _ hw' hmod i h
    have hdvd : 10 ^ (2 + i.digits.length) ∣ 100000 :=
      pow_dvd_pow 10 (Nat.add_le_add_left (length_digits_le i) 2)
    exact unexaminedDigitsHaveNoEffect w w' i h hw' (Nat.ModEq.of_dvd hdvd hmod.symm)

/-- Settles O5: a digit from 3 up is none of the three that `modeOf_cases` gives a mode. -/
theorem modeDigitsNameTheModes : Obligations.ModeDigitsNameTheModes := by
  unfold Obligations.ModeDigitsNameTheModes
  refine ⟨rfl, rfl, rfl, fun d hd => ?_⟩
  obtain ⟨-, hval⟩ | ⟨-, hval⟩ | ⟨-, hval⟩ | ⟨hmode, -⟩ := modeOf_cases d
  · omega
  · omega
  · omega
  · exact hmode

/-- Settles O7: the decoder evaluated on each word. -/
theorem sampleWordsDecodeAsTheSpecSays : Obligations.SampleWordsDecodeAsTheSpecSays := by
  unfold Obligations.SampleWordsDecodeAsTheSpecSays
  decide

/-! The length (30_encoding.md R56). -/

theorem length_eq_of_code (i : Instr) : i.length =
    if i.code ∈ [1, 2, 7, 8] then 4 else if i.code ∈ [5, 6] then 3 else if i.code ∈ [3, 4, 9] then 2 else 1 := by
  cases i <;> rfl

/-- An instruction that is no jump commits pc past its cells. -/
theorem Commits.pc_toInt {i : Instr} {s t : State} (hcode : i.code ∉ [5, 6]) (h : Commits i s t) :
    t.pc.toInt = s.pc.toInt + i.length := by
  cases i with
  | jt | jf => simp [Instr.code] at hcode
  | add | mul | lt | eq =>
    obtain ⟨p, a, q, r, -, -, hq, -, rfl⟩ := h
    exact hq
  | inp =>
    obtain ⟨a, q, -, hq, rfl⟩ := h
    exact hq
  | out | arb =>
    obtain ⟨v, q, hq, rfl⟩ := h
    exact hq
  | hlt =>
    obtain ⟨q, hq, rfl⟩ := h
    exact hq

/-- A conditional jump that raises no error and is not taken goes past its three cells. -/
theorem pc_toInt_of_untaken_condJump {taken : Word → Bool} {m0 m1 : ModeDigit} {s t : State} (hpc : 0 ≤ s.pc.toInt)
    (huntaken : taken (s.inValue m0 (s.param 0)) = false) (h : finish s (condJump taken m0 m1 s) = .next t)
    (hst : t.st ≠ .error) : t.pc.toInt = s.pc.toInt + 3 := by
  obtain hok | ⟨c, -, rfl⟩ := finish_eq_next.1 h
  · rw [condJump_at hpc, huntaken, raiseFirst_eq_ok] at hok
    obtain ⟨hnone, ht⟩ := hok
    simp only [List.append_eq_nil_iff, errorIf_eq_nil, inErrors_eq_nil] at hnone
    obtain ⟨⟨hfetch, hcell0, -⟩, hcell1, -⟩ := hnone
    have hmax := (toInt_inRange s.pc).2
    cases ht
    exact pcPlus_toInt ⟨hpc, by push_cast at hcell0 hcell1 ⊢; omega⟩
  · exact absurd rfl hst

/-- Settles O6: an instruction that is no jump advances pc by what it commits, an untaken jump by its three cells. -/
theorem pcAdvancesByTheLengthOfTheCode : Obligations.PcAdvancesByTheLengthOfTheCode := by
  unfold Obligations.PcAdvancesByTheLengthOfTheCode
  refine ⟨length_eq_of_code, fun i s t hpc h _ hst hjump => ?_⟩
  obtain hcommits | ⟨c, -, rfl⟩ := exec_next_cases h
  · cases i with
    | jt m0 m1 => exact pc_toInt_of_untaken_condJump hpc (decide_eq_false hjump) h hst
    | jf m0 m1 => exact pc_toInt_of_untaken_condJump hpc (decide_eq_false hjump) h hst
    | _ => exact hcommits.pc_toInt (by simp [Instr.code])
  · exact absurd rfl hst

/-! InvalidOpcode (30_encoding.md R58, R59). -/

/-- A decoded instruction never raises InvalidOpcode. -/
theorem exec_ne_invalidOpcode {s : State} (hst : s.st ≠ .error) (i : Instr) :
    exec i s ≠ .next (s.enterError .invalidOpcode) := by
  intro h
  obtain ⟨t, ht, hcommits⟩ | ⟨c, ⟨-, hc⟩, ht⟩ | ⟨hfault, -⟩ := exec_cases i s
  · cases ht.symm.trans h
    obtain ⟨-, -, -, -, -, -, -, herror⟩ := hcommits.frame
    rw [State.enterError_st] at herror
    split_ifs at herror
    exact hst herror.symm
  · injection ht.symm.trans h with hstate
    exact hc (congrArg (·.errCause) hstate)
  · cases hfault.symm.trans h

theorem onItsTurn_word (s : State) : s.onItsTurn.word = s.word := by
  simp only [State.word, onItsTurn_pc, onItsTurn_mem]

/-- Settles O26: below ADDR_MAX the step is InvalidOpcode where the decoder refuses, and an instruction raises other
errors only. -/
theorem invalidOpcodeExactlyOnIllegalWords : Obligations.InvalidOpcodeExactlyOnIllegalWords := by
  unfold Obligations.InvalidOpcodeExactlyOnIllegalWords
  intro s hst hev hpc hmax
  have hlegal : s.word.toInt < 0 ∨ s.word.toNat % 100 ∉ [1, 2, 3, 4, 5, 6, 7, 8, 9, 99] ↔
      ¬ ∃ i, decode s.word = .instr i := by
    rw [exists_decode_eq_instr, not_and_or, not_le]
  rw [step_running hst hev, runStep_at (by rwa [onItsTurn_pc]), if_neg (by rw [onItsTurn_pc]; omega), onItsTurn_word,
    hlegal]
  cases hdec : decode s.word with
  | instr i => exact iff_of_false (exec_ne_invalidOpcode (by simp [hst]) i) fun h => h ⟨i, rfl⟩
  | refused why => exact iff_of_true rfl nofun

end Sys2Proof.Machine

/-! Operands (40_decode_and_operands.md): each parameter form as one chain of the running pointer, the checked address and
the cell there, in which Position and Relative differ by the address alone; and the step as the decoded instruction's. -/

namespace Sys2Proof.Machine

section
variable {s : State} {d : ModeDigit} {p raw : Word}

/-! The address of a Position or Relative parameter. -/

/-- The checks of an effective address, in the order of 40_decode_and_operands.md R79: the sum, then the sign. -/
def State.address (s : State) (d : ModeDigit) (raw : Word) : Res Word := (fit (s.ea d raw)).bind checkAddress

theorem ea_position (hd : d.val = 0) : s.ea d raw = raw.toInt := if_neg (by omega)

theorem ea_relative (hd : d.val = 2) : s.ea d raw = s.rb.toInt + raw.toInt := if_pos hd

theorem address_position : s.address 0 raw = checkAddress raw := by
  rw [State.address, ea_position rfl, fit_toInt, Res.bind_ok]

theorem address_relative : s.address 2 raw = relativeAddress s raw := rfl

theorem address_of_toInt_eq {a : Word} (ha : a.toInt = s.ea d raw) (h0 : 0 ≤ a.toInt) : s.address d raw = .ok a := by
  rw [State.address, fit_of_toInt_eq ha, Res.bind_ok, checkAddress, if_neg (not_lt.2 h0)]

theorem address_negative (hneg : s.ea d raw < 0) (hmin : Config.minW ≤ s.ea d raw) :
    s.address d raw = .err .negativeAddress := by
  have hword := toInt_ofInt hmin (hneg.le.trans (by decide))
  rw [State.address, fit_of_toInt_eq hword, Res.bind_ok, checkAddress, if_pos (by rwa [hword])]

theorem address_overflow (h : ¬ inRange (s.ea d raw)) : s.address d raw = .err .arithmeticOverflow := by
  rw [State.address, fit_err h, Res.bind_err]

theorem address_position_negative (hd : d.val = 0) (hneg : raw.toInt < 0) : s.address d raw = .err .negativeAddress :=
  address_negative (by rwa [ea_position hd]) (ea_inRange (by omega)).1

theorem address_relative_negative (hd : d.val = 2) (hneg : s.rb.toInt + raw.toInt < 0)
    (hmin : Config.minW ≤ s.rb.toInt + raw.toInt) : s.address d raw = .err .negativeAddress :=
  address_negative (by rwa [ea_relative hd]) (by rwa [ea_relative hd])

theorem address_relative_overflow (hd : d.val = 2) (h : ¬ inRange (s.rb.toInt + raw.toInt)) :
    s.address d raw = .err .arithmeticOverflow :=
  address_overflow (by rwa [ea_relative hd])

/-! The parameter forms as chains, for each kind of mode digit. -/

theorem readParam_bind {α : Type} (hp : 0 ≤ p.toInt) (f : Word × Word → Res α) :
    (readParam s p).bind f = (advance p).bind fun q => f (memGet s.mem p.toNat, q) := by
  rw [readParam, readCell_ok hp, Res.bind_ok]
  cases advance p <;> rfl

theorem modeOf_illegal (hd : 3 ≤ d.val) : modeOf d = none := by
  revert d
  decide

theorem readIn_illegal (hd : 3 ≤ d.val) : readIn s d p = .err .invalidAddressingMode := by
  rw [readIn, modeOf_illegal hd]

theorem resolveOut_illegal (hd : 3 ≤ d.val) : resolveOut s d p = .err .invalidAddressingMode := by
  rw [resolveOut, modeOf_illegal hd]

theorem resolveOut_immediate (hd : d.val = 1) : resolveOut s d p = .err .immediateWriteTarget := by
  obtain rfl : d = 1 := Fin.ext hd
  rfl

theorem readIn_immediate (hp : 0 ≤ p.toInt) (hd : d.val = 1) :
    readIn s d p = (advance p).bind fun q => .ok (memGet s.mem p.toNat, q) := by
  obtain rfl : d = 1 := Fin.ext hd
  change readParam s p = _
  rw [readParam, readCell_ok hp, Res.bind_ok]

theorem readIn_address (hp : 0 ≤ p.toInt) (hd : d.val = 0 ∨ d.val = 2) :
    readIn s d p = (advance p).bind fun q => (s.address d (memGet s.mem p.toNat)).bind fun a =>
      (readCell s a).bind fun v => .ok (v, q) := by
  rw [← readParam_bind hp fun c => (s.address d c.1).bind fun a => (readCell s a).bind fun v => .ok (v, c.2)]
  obtain rfl | rfl : d = 0 ∨ d = 2 := hd.imp Fin.ext Fin.ext
  · simp only [address_position]
    rfl
  · rfl

theorem resolveOut_address (hp : 0 ≤ p.toInt) (hd : d.val = 0 ∨ d.val = 2) :
    resolveOut s d p = (advance p).bind fun q => (s.address d (memGet s.mem p.toNat)).bind fun a => .ok (a, q) := by
  rw [← readParam_bind hp fun c => (s.address d c.1).bind fun a => .ok (a, c.2)]
  obtain rfl | rfl : d = 0 ∨ d = 2 := hd.imp Fin.ext Fin.ext
  · simp only [address_position]
    rfl
  · rfl

/-! What the chains answer. -/

theorem readIn_at_addrMax (hd : d.val ≤ 2) (hmax : p.toInt = Config.maxW) :
    readIn s d p = .err .arithmeticOverflow := by
  have hp : 0 ≤ p.toInt := hmax ▸ by decide
  obtain hd | hd : d.val = 1 ∨ (d.val = 0 ∨ d.val = 2) := by omega
  · rw [readIn_immediate hp hd, advance_err hmax, Res.bind_err]
  · rw [readIn_address hp hd, advance_err hmax, Res.bind_err]

theorem resolveOut_at_addrMax (hd : d.val = 0 ∨ d.val = 2) (hmax : p.toInt = Config.maxW) :
    resolveOut s d p = .err .arithmeticOverflow := by
  rw [resolveOut_address (hmax ▸ by decide) hd, advance_err hmax, Res.bind_err]

section
variable (hp : 0 ≤ p.toInt) (hmax : p.toInt < Config.maxW) (hd : d.val = 0 ∨ d.val = 2)
include hp hmax hd

theorem readIn_of_address_err {c : ErrCause} (h : s.address d (memGet s.mem p.toNat) = .err c) :
    readIn s d p = .err c := by
  rw [readIn_address hp hd, advance_ok hmax, Res.bind_ok, h, Res.bind_err]

theorem resolveOut_of_address_err {c : ErrCause} (h : s.address d (memGet s.mem p.toNat) = .err c) :
    resolveOut s d p = .err c := by
  rw [resolveOut_address hp hd, advance_ok hmax, Res.bind_ok, h, Res.bind_err]

theorem readIn_of_toInt_eq {a : Word} (ha : a.toInt = s.ea d (memGet s.mem p.toNat)) (h0 : 0 ≤ a.toInt) :
    readIn s d p = .ok (memGet s.mem a.toNat, p + 1) := by
  rw [readIn_address hp hd, advance_ok hmax, Res.bind_ok, address_of_toInt_eq ha h0, Res.bind_ok, readCell_ok h0,
    Res.bind_ok]

theorem resolveOut_of_toInt_eq {a : Word} (ha : a.toInt = s.ea d (memGet s.mem p.toNat)) (h0 : 0 ≤ a.toInt) :
    resolveOut s d p = .ok (a, p + 1) := by
  rw [resolveOut_address hp hd, advance_ok hmax, Res.bind_ok, address_of_toInt_eq ha h0, Res.bind_ok]

end

end

/-- A sum that is an address, as the word that holds it. -/
theorem exists_word_of_address {v : Int} (h0 : 0 ≤ v) (hmax : v ≤ Config.maxW) :
    ∃ a : Word, a.toInt = v ∧ a.toNat = v.toNat := by
  have ha := toInt_ofInt (le_trans (by decide) h0) hmax
  have hnat := toNat_of_nonneg (ha ▸ h0)
  exact ⟨_, ha, by omega⟩

/-- Settles O12: a mode digit that names no mode, the pointer at ADDR_MAX, and below it Immediate and each outcome of the
address of a Position and of a Relative parameter. -/
theorem inputParameterInEveryMode : Obligations.InputParameterInEveryMode := by
  unfold Obligations.InputParameterInEveryMode
  rintro s d p raw hp rfl
  refine ⟨readIn_illegal, readIn_at_addrMax, fun hmax => ⟨fun hd => ?immediate, fun hd h0 => ?position,
    fun hd hneg => ?positionNegative, fun hd h0 hle => ?relative, fun hd hneg hmin => ?relativeNegative,
    fun hd hout => ?relativeOverflow⟩⟩
  case immediate => rw [readIn_immediate hp hd, advance_ok hmax, Res.bind_ok]
  case position => exact readIn_of_toInt_eq hp hmax (.inl hd) (ea_position hd).symm h0
  case positionNegative => exact readIn_of_address_err hp hmax (.inl hd) (address_position_negative hd hneg)
  case relative =>
    obtain ⟨a, ha, hnat⟩ := exists_word_of_address h0 hle
    rw [← hnat]
    exact readIn_of_toInt_eq hp hmax (.inr hd) (ha.trans (ea_relative hd).symm) (ha ▸ h0)
  case relativeNegative => exact readIn_of_address_err hp hmax (.inr hd) (address_relative_negative hd hneg hmin)
  case relativeOverflow => exact readIn_of_address_err hp hmax (.inr hd) (address_relative_overflow hd hout)

/-- Settles O13: as for an input parameter, with Immediate refused before the pointer moves and the address itself as the
answer. -/
theorem outputParameterInEveryMode : Obligations.OutputParameterInEveryMode := by
  unfold Obligations.OutputParameterInEveryMode
  rintro s d p raw hp rfl
  refine ⟨resolveOut_illegal, resolveOut_immediate, resolveOut_at_addrMax, fun hmax => ⟨fun hd h0 => ?position,
    fun hd hneg => ?positionNegative, fun hd h0 hle => ?relative, fun hd hneg hmin => ?relativeNegative,
    fun hd hout => ?relativeOverflow⟩⟩
  case position => exact resolveOut_of_toInt_eq hp hmax (.inl hd) (ea_position hd).symm h0
  case positionNegative => exact resolveOut_of_address_err hp hmax (.inl hd) (address_position_negative hd hneg)
  case relative =>
    obtain ⟨a, ha, -⟩ := exists_word_of_address h0 hle
    exact ⟨a, ha, resolveOut_of_toInt_eq hp hmax (.inr hd) (ha.trans (ea_relative hd).symm) (ha ▸ h0)⟩
  case relativeNegative => exact resolveOut_of_address_err hp hmax (.inr hd) (address_relative_negative hd hneg hmin)
  case relativeOverflow => exact resolveOut_of_address_err hp hmax (.inr hd) (address_relative_overflow hd hout)

/-! Modes agree when the values agree (40_decode_and_operands.md R83). -/

/-- A parameter cell replaced by `v` has the raw value `v`. -/
theorem memGet_setMem_memPut_self {s : State} (hwf : s.mem.wf = true) (a : Nat) (v : Word) :
    memGet (s.setMem (memPut s.mem a v)).mem a = v := by
  rw [State.setMem_mem, memGet_memPut hwf, if_pos rfl]

/-- Settles O14: the chains differ in the address alone, and the two addresses are one word; reading there is not disturbed
by the replaced cell. -/
theorem modesAgreeWhenTheValuesAgree : Obligations.ModesAgreeWhenTheValuesAgree := by
  unfold Obligations.ModesAgreeWhenTheValuesAgree
  rintro s p raw hwf hp rfl
  refine ⟨fun h0 => ?_, fun ea hea h0 => ?_⟩
  · rw [readIn_immediate hp rfl, memGet_setMem_memPut_self hwf, readIn_address hp (.inl rfl),
      address_of_toInt_eq (ea_position rfl).symm h0]
    simp only [Res.bind_ok, readCell_ok h0]
  · have hpos : (s.setMem (memPut s.mem p.toNat ea)).address 0 ea = .ok ea :=
      address_of_toInt_eq (ea_position rfl).symm h0
    have hrel : s.address 2 (memGet s.mem p.toNat) = .ok ea := address_of_toInt_eq (hea.trans (ea_relative rfl).symm) h0
    constructor
    · intro hne
      rw [readIn_address hp (.inl rfl), memGet_setMem_memPut_self hwf, hpos, readIn_address hp (.inr rfl), hrel]
      simp only [Res.bind_ok, readCell_setMem_memPut hwf h0, if_neg hne, readCell_ok h0]
    · rw [resolveOut_address hp (.inl rfl), memGet_setMem_memPut_self hwf, hpos, resolveOut_address hp (.inr rfl), hrel]

/-! The step (40_decode_and_operands.md R70). -/

/-- Settles O37: below ADDR_MAX the core's step is the decoded instruction's; at ADDR_MAX fetch and instruction overflow
alike. -/
theorem stepRunsTheDecodedInstruction : Obligations.StepRunsTheDecodedInstruction := by
  unfold Obligations.StepRunsTheDecodedInstruction
  intro s i hst hev hpc hdec
  rw [step_running hst hev, runStep_at (by rwa [onItsTurn_pc]), onItsTurn_word, hdec]
  split
  case isTrue hmax => rw [exec_at_addrMax i hmax]
  case isFalse => rfl

end Sys2Proof.Machine

/-! Instructions with one parameter that complete (42_io.md). -/

namespace Sys2Proof.Machine

section
variable {s : State} {m0 : ModeDigit} {effect : Word → Res State}

/-- The fetch of an instruction whose two cells are in reach does not overflow. -/
theorem fetchErrors_eq_nil_of_cellsFit (hfit : s.cellsFit 2) :
    errorIf (s.pc.toInt = Config.maxW) .arithmeticOverflow = [] :=
  errorIf_eq_nil.2 (by omega)

/-- Format F1I with its input resolvable is the effect on the value, then pc past the two cells. -/
theorem oneIn_of_readable (hfit : s.cellsFit 2) (h0 : s.readable m0 (s.param 0)) :
    oneIn effect m0 s = (effect (s.inValue m0 (s.param 0))).bind fun t => .ok (t.setPc (s.pcPlus 2)) := by
  have e0 : s.inErrors 0 m0 = [] := inErrors_eq_nil.2 ⟨by omega, h0⟩
  rw [oneIn_at hfit.1, fetchErrors_eq_nil_of_cellsFit hfit, e0]
  rfl

/-- Format F1O with its target an address is the effect on that address, then pc past the two cells. -/
theorem oneOut_of_writable (hfit : s.cellsFit 2) (h0 : s.writable m0 (s.param 0)) {a : Word}
    (ha : a.toInt = s.ea m0 (s.param 0)) :
    oneOut effect m0 s = (effect a).bind fun t => .ok (t.setPc (s.pcPlus 2)) := by
  have e0 : s.outErrors 0 m0 = [] := outErrors_eq_nil.2 ⟨by omega, h0⟩
  rw [oneOut_at hfit.1, fetchErrors_eq_nil_of_cellsFit hfit, e0, ← ha, BitVec.ofInt_toInt]
  rfl

end

/-- Settles O17: the target is the word of an effective address, and the capture itself raises nothing. -/
theorem inCapturesTheDestinationAndSuspends : Obligations.InCapturesTheDestinationAndSuspends := by
  unfold Obligations.InCapturesTheDestinationAndSuspends
  intro s m0 hfit h0
  obtain ⟨a, ha, -⟩ := exists_word_of_address h0.2.1 h0.2.2
  refine ⟨a, ha, ?_⟩
  rw [exec, execIn, oneOut_of_writable hfit h0 ha, Res.bind_ok, finish_ok]
  rfl

/-- Settles O18: the capture of a resolvable input raises nothing. -/
theorem outCapturesTheValueAndSuspends : Obligations.OutCapturesTheValueAndSuspends := by
  unfold Obligations.OutCapturesTheValueAndSuspends
  intro s m0 hfit h0
  rw [exec, execOut, oneIn_of_readable hfit h0, Res.bind_ok, finish_ok]
  rfl

end Sys2Proof.Machine

/-! Conditional jumps with both parameters resolvable (43_jumps.md): what a taken and an untaken one complete with, and the
step at a cell that reads 0. -/

namespace Sys2Proof.Machine

/-- A taken jump to an address completes there. -/
theorem finish_jumpTo_of_nonneg (s : State) {b : Word} (hb : 0 ≤ b.toInt) : finish s (jumpTo s b) = .next (s.setPc b) := by
  obtain ⟨hok, -⟩ | ⟨-, hneg⟩ := jumpTo_cases s b
  · rw [hok, finish_ok]
  · omega

/-- A taken jump to a negative target takes the error. -/
theorem finish_jumpTo_of_neg (s : State) {b : Word} (hb : b.toInt < 0) :
    finish s (jumpTo s b) = .next (s.enterError .negativeAddress) := by
  obtain ⟨-, hnonneg⟩ | ⟨herr, -⟩ := jumpTo_cases s b
  · omega
  · rw [herr, finish_err]

theorem condTrue_iff {a : Word} : condTrue a = true ↔ a ≠ 0 := decide_eq_true_iff

theorem condFalse_iff {a : Word} : condFalse a = true ↔ a = 0 := decide_eq_true_iff

section
variable {s : State} {m0 m1 : ModeDigit} {i : Instr} (hfit : s.cellsFit 3) (h0 : s.readable m0 (s.param 0))
  (h1 : s.readable m1 (s.param 1))
include hfit h0 h1

/-- Format F2II with both inputs resolvable is the choice alone: the jump, or pc past the three cells. -/
theorem condJump_of_readable (taken : Word → Bool) : condJump taken m0 m1 s =
    if taken (s.inValue m0 (s.param 0)) then jumpTo s (s.inValue m1 (s.param 1)) else .ok (s.setPc (s.pcPlus 3)) := by
  obtain ⟨hpc, hmax⟩ := hfit
  push_cast at hmax
  have e : errorIf (s.pc.toInt = Config.maxW) .arithmeticOverflow = [] := errorIf_eq_nil.2 (by omega)
  have e0 : s.inErrors 0 m0 = [] := inErrors_eq_nil.2 ⟨by push_cast; omega, h0⟩
  have e1 : s.inErrors 1 m1 = [] := inErrors_eq_nil.2 ⟨by push_cast; omega, h1⟩
  rw [condJump_at hpc, e, e0, e1]
  rfl

variable (hi : i = .jt m0 m1 ∨ i = .jf m0 m1)
include hi

theorem exec_of_jumpTaken (htaken : jumpTaken i s) :
    exec i s = finish s (jumpTo s (s.inValue m1 (s.param 1))) := by
  obtain rfl | rfl := hi
  · rw [exec, execJt, condJump_of_readable hfit h0 h1, if_pos (condTrue_iff.2 htaken)]
  · rw [exec, execJf, condJump_of_readable hfit h0 h1, if_pos (condFalse_iff.2 htaken)]

theorem exec_of_not_jumpTaken (huntaken : ¬ jumpTaken i s) :
    exec i s = .next (s.setPc (s.pcPlus 3)) := by
  obtain rfl | rfl := hi
  · rw [exec, execJt, condJump_of_readable hfit h0 h1, if_neg (mt condTrue_iff.1 huntaken), finish_ok]
  · rw [exec, execJf, condJump_of_readable hfit h0 h1, if_neg (mt condFalse_iff.1 huntaken), finish_ok]

/-- A jump whose target is an address when it is taken completes, at its target or past its three cells. -/
theorem exec_jump_of_nonneg [Decidable (jumpTaken i s)]
    (hb : jumpTaken i s → 0 ≤ (s.inValue m1 (s.param 1)).toInt) :
    exec i s = .next (s.setPc (if jumpTaken i s then s.inValue m1 (s.param 1) else s.pcPlus 3)) := by
  by_cases htaken : jumpTaken i s
  · rw [exec_of_jumpTaken hfit h0 h1 hi htaken, finish_jumpTo_of_nonneg s (hb htaken), if_pos htaken]
  · rw [exec_of_not_jumpTaken hfit h0 h1 hi htaken, if_neg htaken]

/-- A taken jump with a negative target takes the error. -/
theorem exec_of_jumpTaken_of_neg (htaken : jumpTaken i s)
    (hb : (s.inValue m1 (s.param 1)).toInt < 0) : exec i s = .next (s.enterError .negativeAddress) := by
  rw [exec_of_jumpTaken hfit h0 h1 hi htaken, finish_jumpTo_of_neg s hb]

end

/-- Settles O19: of `jt` and `jf` each completes at its target when it is taken, else past its cells. -/
theorem jumpsGoToTheTargetExactlyWhenTaken : Obligations.JumpsGoToTheTargetExactlyWhenTaken := by
  unfold Obligations.JumpsGoToTheTargetExactlyWhenTaken
  intro s m0 m1 hfit h0 h1
  exact ⟨exec_jump_of_nonneg hfit h0 h1 (i := .jt m0 m1) (.inl rfl),
    exec_jump_of_nonneg hfit h0 h1 (i := .jf m0 m1) (.inr rfl)⟩

/-- Settles O28: exactly one of `jt` and `jf` is taken, and that one alone looks at its target. -/
theorem negativeTargetIsAnErrorOnlyWhenTaken : Obligations.NegativeTargetIsAnErrorOnlyWhenTaken := by
  unfold Obligations.NegativeTargetIsAnErrorOnlyWhenTaken
  intro s m0 m1 hfit h0 h1 hneg
  constructor
  · intro hne
    exact ⟨exec_of_jumpTaken_of_neg hfit h0 h1 (.inl rfl) hne hneg, exec_of_not_jumpTaken hfit h0 h1 (.inr rfl) hne⟩
  · intro hzero
    exact ⟨exec_of_not_jumpTaken hfit h0 h1 (.inl rfl) (not_not.2 hzero),
      exec_of_jumpTaken_of_neg hfit h0 h1 (.inr rfl) hzero hneg⟩

/-- The word 0 is no instruction: the core's step at a cell that reads 0 fails, at ADDR_MAX by the fetch. -/
theorem step_of_word_eq_zero {s : State} (hst : s.st = .running) (hev : s.hostEvent = none) (hpc : 0 ≤ s.pc.toInt)
    (hword : s.word = 0) : step s =
      .next (s.onItsTurn.enterError (if s.pc.toInt = Config.maxW then .arithmeticOverflow else .invalidOpcode)) := by
  have hdec : decode 0 = .refused (.illegalCode 0) := by decide
  rw [step_running hst hev, runStep_at (by rwa [onItsTurn_pc]), onItsTurn_word, hword, hdec, onItsTurn_pc]
  split <;> rfl

/-- Settles O29: the jump completes at its target, and the step there finds the word 0. -/
theorem jumpToAnUnwrittenCellFailsAtTheNextFetch : Obligations.JumpToAnUnwrittenCellFailsAtTheNextFetch := by
  unfold Obligations.JumpToAnUnwrittenCellFailsAtTheNextFetch
  intro s m0 m1 i hst hhost hfit h0 h1 hb hi htaken
  constructor
  · rw [exec_of_jumpTaken hfit h0 h1 hi htaken, finish_jumpTo_of_nonneg s hb]
  · intro hzero
    have hev : (s.setPc (s.inValue m1 (s.param 1))).hostEvent = none := by rw [State.hostEvent, State.setPc_host, hhost]
    exact ⟨_, step_of_word_eq_zero hst hev hb hzero, rfl, onItsTurn_pc _, rfl⟩

end Sys2Proof.Machine

/-! The relative base (45_relative_base.md): what an `arb` that completes leaves, and what does not depend on rb. -/

namespace Sys2Proof.Machine

/-! `arb` (45_relative_base.md R110, R111). -/

/-- An `arb` whose sum is the word `v` completes with it. -/
theorem exec_arb_of_readable {s : State} {m0 : ModeDigit} {v : Word} (hfit : s.cellsFit 2)
    (h0 : s.readable m0 (s.param 0)) (hv : v.toInt = s.rb.toInt + (s.inValue m0 (s.param 0)).toInt) :
    exec (.arb m0) s = .next ((s.setRb v).setPc (s.pcPlus 2)) := by
  rw [exec, execArb, oneIn_of_readable hfit h0, fit_of_toInt_eq hv, Res.bind_ok, Res.bind_ok, finish_ok]

/-- Settles O20: a sum inside Int_W is a word's integer, and with it `arb` completes. -/
theorem arbAddsToTheRelativeBase : Obligations.ArbAddsToTheRelativeBase := by
  unfold Obligations.ArbAddsToTheRelativeBase
  rintro s m0 hfit h0 ⟨hmin, hmax⟩
  have hv := toInt_ofInt hmin hmax
  exact ⟨_, hv, exec_arb_of_readable hfit h0 hv⟩

/-- Settles O22: the sum of the second `arb` is the base of before, a word's integer, so it completes with that base. -/
theorem adjustingByKThenByMinusKRestoresTheBase : Obligations.AdjustingByKThenByMinusKRestoresTheBase := by
  unfold Obligations.AdjustingByKThenByMinusKRestoresTheBase
  intro s t m0 m1 hfit h0 hrange hexec h1 hneg
  have hfit2 : s.cellsFit 2 := ⟨hfit.1, by omega⟩
  obtain ⟨v, hv, hfirst⟩ := arbAddsToTheRelativeBase s m0 hfit2 h0 hrange
  obtain rfl : (s.setRb v).setPc (s.pcPlus 2) = t := Host.Outcome.next.inj (hfirst.symm.trans hexec)
  have hpc := pcPlus_toInt hfit2
  have hfit2' : ((s.setRb v).setPc (s.pcPlus 2)).cellsFit 2 := by
    rw [State.cellsFit, State.setPc_pc, hpc]
    omega
  have hpc' : ((s.setRb v).setPc (s.pcPlus 2)).pcPlus 2 = s.pcPlus 4 :=
    eq_pcPlus (by rw [pcPlus_toInt hfit2', State.setPc_pc, hpc]; omega)
  rw [exec_arb_of_readable hfit2' h1 (v := s.rb) (by rw [hneg, State.setPc_rb, State.setRb_rb, hv]; omega), hpc']
  rfl

/-! Who reads rb (45_relative_base.md R112): with rb replaced, a computation without a Relative parameter answers the
same, rb replaced in the state it answers. -/

/-- A result with rb replaced in its state. -/
def Res.setRb (v : Word) (r : Res State) : Res State := r.bind fun t => .ok (t.setRb v)

/-- An outcome with rb replaced in its state. -/
def outcomeSetRb (v : Word) : Host.Outcome State Fault Refusal → Host.Outcome State Fault Refusal
  | .next t => .next (t.setRb v)
  | .fault f => .fault f
  | .refused r => .refused r

/-- rb replaced at the end of a chain is rb replaced in its last part. -/
theorem Res.setRb_bind {α : Type} (v : Word) (x : Res α) (f : α → Res State) :
    (x.bind f).setRb v = x.bind fun a => (f a).setRb v := by cases x <;> rfl

section
variable {s : State} {m0 m1 m2 : ModeDigit} {v : Word}

theorem readIn_setRb {d : ModeDigit} (hd : d.val ≠ 2) (p : Word) : readIn (s.setRb v) d p = readIn s d p := by
  obtain ⟨hm, -⟩ | ⟨hm, -⟩ | ⟨-, hrel⟩ | ⟨hm, -⟩ := modeOf_cases d
  case inr.inr.inl => exact absurd hrel hd
  all_goals simp only [readIn, hm] <;> rfl

theorem resolveOut_setRb {d : ModeDigit} (hd : d.val ≠ 2) (p : Word) :
    resolveOut (s.setRb v) d p = resolveOut s d p := by
  obtain ⟨hm, -⟩ | ⟨hm, -⟩ | ⟨-, hrel⟩ | ⟨hm, -⟩ := modeOf_cases d
  case inr.inr.inl => exact absurd hrel hd
  all_goals simp only [resolveOut, hm] <;> rfl

theorem writeCell_setRb (a x : Word) : writeCell (s.setRb v) a x = (writeCell s a x).setRb v := by
  unfold writeCell
  split <;> rfl

theorem jumpTo_setRb (b : Word) : jumpTo (s.setRb v) b = (jumpTo s b).setRb v := by
  rw [jumpTo_eq, jumpTo_eq, Res.setRb_bind]
  rfl

/-- The last part of three formats, pc past the instruction. -/
theorem Res.setRb_bind_setPc (r : Res State) (q : Word) :
    ((r.setRb v).bind fun t => .ok (t.setPc q)) = (r.bind fun t => .ok (t.setPc q)).setRb v := by cases r <;> rfl

theorem threeParam_setRb (hd : ∀ d ∈ [m0, m1, m2], d.val ≠ 2) (op : Word → Word → Res Word) :
    threeParam op m0 m1 m2 (s.setRb v) = (threeParam op m0 m1 m2 s).setRb v := by
  obtain ⟨h0, h1, h2⟩ : m0.val ≠ 2 ∧ m1.val ≠ 2 ∧ m2.val ≠ 2 := by simpa using hd
  simp only [threeParam, State.setRb_pc, readIn_setRb h0, readIn_setRb h1, resolveOut_setRb h2, writeCell_setRb,
    Res.setRb_bind_setPc, Res.setRb_bind]

theorem condJump_setRb (hd : ∀ d ∈ [m0, m1], d.val ≠ 2) (taken : Word → Bool) :
    condJump taken m0 m1 (s.setRb v) = (condJump taken m0 m1 s).setRb v := by
  obtain ⟨h0, h1⟩ : m0.val ≠ 2 ∧ m1.val ≠ 2 := by simpa using hd
  simp only [condJump, State.setRb_pc, readIn_setRb h0, readIn_setRb h1, jumpTo_setRb, Res.setRb_bind, apply_ite]
  rfl

theorem oneIn_setRb (hd : ∀ d ∈ [m0], d.val ≠ 2) {f f' : Word → Res State} (hf : ∀ a, f' a = (f a).setRb v) :
    oneIn f' m0 (s.setRb v) = (oneIn f m0 s).setRb v := by
  have h0 : m0.val ≠ 2 := by simpa using hd
  simp only [oneIn, State.setRb_pc, readIn_setRb h0, hf, Res.setRb_bind_setPc, Res.setRb_bind]

theorem oneOut_setRb (hd : ∀ d ∈ [m0], d.val ≠ 2) {f f' : Word → Res State} (hf : ∀ a, f' a = (f a).setRb v) :
    oneOut f' m0 (s.setRb v) = (oneOut f m0 s).setRb v := by
  have h0 : m0.val ≠ 2 := by simpa using hd
  simp only [oneOut, State.setRb_pc, resolveOut_setRb h0, hf, Res.setRb_bind_setPc, Res.setRb_bind]

/-- The end of a step that answers the same with rb replaced: an error taken keeps rb. -/
theorem finish_setRb {r r' : Res State} (hr : r' = r.setRb v) :
    finish (s.setRb v) r' = outcomeSetRb v (finish s r) := by
  subst hr
  cases r <;> rfl

end

/-- An instruction other than `arb` without a Relative parameter neither reads rb nor writes it. -/
theorem exec_setRb {i : Instr} {s : State} (hd : ∀ d ∈ i.digits, d.val ≠ 2) (hcode : i.code ≠ 9) (v : Word) :
    exec i (s.setRb v) = outcomeSetRb v (exec i s) := by
  cases i with
  | add | mul | lt | eq => exact finish_setRb (threeParam_setRb hd _)
  | jt | jf => exact finish_setRb (condJump_setRb hd _)
  | inp => exact finish_setRb (oneOut_setRb hd fun _ => rfl)
  | out => exact finish_setRb (oneIn_setRb hd fun _ => rfl)
  | arb => exact absurd rfl hcode
  | hlt => exact finish_setRb (Res.setRb_bind v (advance s.pc) fun n => .ok ((s.setSt .halted).setPc n)).symm

/-- Settles O34: each format answers the same with rb replaced. -/
theorem relativeBaseMattersOnlyToRelativeModeAndArb : Obligations.RelativeBaseMattersOnlyToRelativeModeAndArb := by
  unfold Obligations.RelativeBaseMattersOnlyToRelativeModeAndArb
  intro i s v hd hcode
  rw [exec_setRb hd hcode]
  cases exec i s <;> rfl

end Sys2Proof.Machine

/-! Halting and the stop states (46_halt.md, 47_control_fsm.md): which words halt, and how each control state in which the
core does not run is entered and left. -/

namespace Sys2Proof.Machine

/-! `hlt` (46_halt.md R113). -/

/-- Below ADDR_MAX `hlt` completes. -/
theorem exec_hlt_of_lt_maxW {s : State} (hmax : s.pc.toInt < Config.maxW) :
    exec .hlt s = .next ((s.setSt .halted).setPc (s.pcPlus 1)) := by
  rw [exec, execHlt, advance_ok hmax, Res.bind_ok, finish_ok]
  rfl

/-- The words that halt: `hlt` has no mode digit, so the two last digits decide. -/
theorem decode_eq_hlt {w : Word} : decode w = .instr .hlt ↔ 0 ≤ w.toInt ∧ w.toNat % 100 = 99 := by
  rw [decode_eq_instr, decodeNat_eq_instr]
  exact and_congr_right fun _ => (and_iff_left rfl).trans eq_comm

theorem onItsTurn_pcPlus (s : State) (n : Nat) : s.onItsTurn.pcPlus n = s.pcPlus n := by
  rw [State.pcPlus, onItsTurn_pc, State.pcPlus]

/-- Settles O21: a non-negative word ending in 99 decodes to `hlt`, so the step is `hlt`'s, which completes below
ADDR_MAX and overflows there. -/
theorem everyWordEndingIn99Halts : Obligations.EveryWordEndingIn99Halts := by
  unfold Obligations.EveryWordEndingIn99Halts
  constructor
  · intro s hfit
    exact exec_hlt_of_lt_maxW (by omega)
  · intro s hst hev hpc hword h99
    have hstep : step s = exec .hlt s.onItsTurn :=
      stepRunsTheDecodedInstruction s .hlt hst hev hpc (decode_eq_hlt.2 ⟨hword, h99⟩)
    rw [hstep]
    constructor
    · intro hmax
      rw [exec_hlt_of_lt_maxW (by rwa [onItsTurn_pc]), onItsTurn_pcPlus]
    · intro hmax
      exact exec_at_addrMax .hlt (by rwa [onItsTurn_pc])

/-! Leaving a stop state (46_halt.md R114; 47_control_fsm.md R129, R133; 60_exceptions.md R154). -/

/-- Outside RUNNING a step only uses up the host's move when the event that comes, if one comes, changes nothing. -/
theorem step_of_event_ignored {s : State} (hst : s.st ≠ .running)
    (hignored : ∀ e, s.hostEvent = some e → onEvent e s.moveUsed = .next s.moveUsed) : step s = .next s.moveUsed := by
  cases hev : s.hostEvent with
  | none => exact step_waiting hst hev
  | some e => rw [step_event hev, hignored e hev]

/-- In HALTED and ERROR every event but the reset is ignored: each of the others acts in some other state only. -/
theorem onEvent_of_halted_or_error {e : HostEvent} {s : State} (hst : s.st = .halted ∨ s.st = .error) (he : e ≠ .rst) :
    onEvent e s = .next s := by
  obtain ⟨hrst, -⟩ | ⟨-, h, -⟩ | ⟨v, -, h, -⟩ | ⟨v, -, h, -⟩ | ⟨v, -, h, -⟩ | ⟨a, v, -, h, -⟩ | ⟨cells, -, h, -⟩ |
    hkept := onEvent_cases e s
  · exact absurd hrst he
  iterate 6 · simp [h] at hst
  · exact hkept

/-- Settles O42: the core does not move there, and the host's event, not being the reset, is ignored. -/
theorem haltedAndErrorAreTerminal : Obligations.HaltedAndErrorAreTerminal := by
  unfold Obligations.HaltedAndErrorAreTerminal
  intro s hst hrst
  refine step_of_event_ignored ?_ fun e hev => onEvent_of_halted_or_error hst ?_
  · intro hrun
    simp [hrun] at hst
  · rintro rfl
    exact hrst hev

/-! Entering a stop state (46_halt.md R114; 47_control_fsm.md R121, R128). -/

/-- An event of the host leaves the control state or moves it to IDLE or RUNNING. -/
theorem onEvent_st_cases {e : HostEvent} {s t : State} (h : onEvent e s = .next t) :
    t.st = s.st ∨ t.st = .idle ∨ t.st = .running := by
  obtain ⟨-, hu⟩ | ⟨-, -, hu⟩ | ⟨v, -, -, -, hu⟩ | ⟨v, -, -, -, hu⟩ | ⟨v, -, -, hu⟩ | ⟨a, v, -, -, -, hu⟩ |
    ⟨cells, -, -, hu⟩ | hu := onEvent_cases e s
  · cases hu.symm.trans h; exact .inr (.inl rfl)
  · cases hu.symm.trans h; exact .inr (.inr rfl)
  · cases hu.symm.trans h; exact .inr (.inr rfl)
  · cases hu.symm.trans h
  · cases hu.symm.trans h; exact .inr (.inr rfl)
  iterate 3 · cases hu.symm.trans h; exact .inl rfl

/-- The instruction `i` is the one that enters the control state `c` by completing. -/
def Enters (i : Instr) (c : Ctrl) : Prop :=
  (c = .awaitInput ∧ ∃ m0, i = .inp m0) ∨ (c = .hasOutput ∧ ∃ m0, i = .out m0) ∨ (c = .halted ∧ i = .hlt)

/-- What an instruction commits changes the control state for `in`, `out` and `hlt` alone, each to its own. -/
theorem Commits.enters {i : Instr} {s t : State} (h : Commits i s t) (hne : t.st ≠ s.st) : Enters i t.st := by
  cases i with
  | add | mul | lt | eq =>
    obtain ⟨p, a, q, r, -, -, -, -, rfl⟩ := h
    exact absurd rfl hne
  | jt | jf =>
    obtain ⟨q, -, rfl⟩ := h
    exact absurd rfl hne
  | arb =>
    obtain ⟨v, q, -, rfl⟩ := h
    exact absurd rfl hne
  | inp m0 =>
    obtain ⟨a, q, -, -, rfl⟩ := h
    exact .inl ⟨rfl, m0, rfl⟩
  | out m0 =>
    obtain ⟨a, q, -, rfl⟩ := h
    exact .inr (.inl ⟨rfl, m0, rfl⟩)
  | hlt =>
    obtain ⟨q, -, rfl⟩ := h
    exact .inr (.inr ⟨rfl, rfl⟩)

/-- How a step changes the control state: the host moves it to IDLE or RUNNING; a running core enters the state of the
decoded instruction, or ERROR. -/
theorem step_st_cases {s t : State} (h : step s = .next t) (hne : t.st ≠ s.st) :
    (t.st = .idle ∨ t.st = .running) ∨
    (s.st = .running ∧ ∃ i, decode s.word = .instr i ∧ Enters i t.st) ∨
    (s.st = .running ∧ t.st = .error) := by
  obtain ⟨e, -, he⟩ | ⟨-, rfl⟩ | ⟨hst, i, hdec, hexec⟩ | ⟨hst, c, -, rfl⟩ := step_next_cases h
  · exact .inl ((onEvent_st_cases he).resolve_left hne)
  · exact absurd rfl hne
  · obtain hcommits | ⟨c, -, rfl⟩ := exec_next_cases hexec
    · exact .inr (.inl ⟨hst, i, hdec, hcommits.enters (by rwa [onItsTurn_st])⟩)
    · exact .inr (.inr ⟨hst, rfl⟩)
  · exact .inr (.inr ⟨hst, rfl⟩)

/-- Settles O44: the host's events enter IDLE and RUNNING only, and each instruction that changes the control state enters
its own. -/
theorem stopsAreEnteredOnlyByTheirInstruction : Obligations.StopsAreEnteredOnlyByTheirInstruction := by
  unfold Obligations.StopsAreEnteredOnlyByTheirInstruction
  intro s t h hne
  obtain (hc | hc) | ⟨hst, i, hdec, ⟨hc, m0, rfl⟩ | ⟨hc, m0, rfl⟩ | ⟨hc, rfl⟩⟩ | ⟨hst, hc⟩ := step_st_cases h hne
  all_goals rw [hc]
  · exact ⟨nofun, nofun, nofun, nofun⟩
  · exact ⟨nofun, nofun, nofun, nofun⟩
  · exact ⟨fun _ => ⟨hst, m0, hdec⟩, nofun, nofun, nofun⟩
  · exact ⟨nofun, fun _ => ⟨hst, m0, hdec⟩, nofun, nofun⟩
  · exact ⟨nofun, nofun, fun _ => ⟨hst, hdec⟩, nofun⟩
  · exact ⟨nofun, nofun, nofun, fun _ => hst⟩

end Sys2Proof.Machine

/-! The control state machine (47_control_fsm.md): for each event of the host the states in which the transition table lists
it, what it does in those of IDLE and the suspend states, and that it does nothing elsewhere. -/

namespace Sys2Proof.Machine

/-! Events that the transition table does not list (47_control_fsm.md R121, R133). -/

/-- The transition table lists the event `e` for the control state `c` (47_control_fsm.md R121; the host's writes,
20_memory.md R44). -/
def Listed (e : HostEvent) (c : Ctrl) : Prop :=
  match e with
  | .rst => True
  | .run | .poke _ _ | .load _ => c = .idle
  | .resume _ => c = .awaitInput ∨ c = .hasOutput

/-- An event does something in the states alone for which the table lists it. -/
theorem onEvent_of_not_listed {e : HostEvent} {s : State} (h : ¬ Listed e s.st) : onEvent e s = .next s := by
  obtain ⟨rfl, -⟩ | ⟨rfl, hst, -⟩ | ⟨v, rfl, hst, -⟩ | ⟨v, rfl, hst, -⟩ | ⟨v, rfl, hst, -⟩ | ⟨a, v, rfl, hst, -⟩ |
    ⟨cells, rfl, hst, -⟩ | hkept := onEvent_cases e s
  · exact absurd trivial h
  · exact absurd hst h
  · exact absurd (.inl hst) h
  · exact absurd (.inl hst) h
  · exact absurd (.inr hst) h
  · exact absurd hst h
  · exact absurd hst h
  · exact hkept

/-- A suspended core listens to the reset and to a resume. -/
theorem eq_rst_or_resume_of_listed {e : HostEvent} {c : Ctrl} (hc : c = .awaitInput ∨ c = .hasOutput) (h : Listed e c) :
    e = .rst ∨ ∃ v, e = .resume v := by
  cases e with
  | rst => exact .inl rfl
  | resume v => exact .inr ⟨v, rfl⟩
  | run | poke | load =>
    cases (h : c = .idle)
    simp at hc

theorem hostPeek_eq_none {s : State} (hidle : s.st ≠ .idle) (hhalted : s.st ≠ .halted) (a : Word) :
    hostPeek s a = none :=
  Option.eq_none_iff_forall_ne_some.2 fun _ h => (hostPeek_eq_some.1 h).1.elim hidle hhalted

/-- In RUNNING an event that is not the reset leaves the core its turn (47_control_fsm.md R134). -/
theorem transitionOn_of_running {s : State} (hst : s.st = .running) {e : HostEvent} (he : e ≠ .rst) :
    transitionOn (some e) s = transitionOn none s := if_pos ⟨hst, he⟩

/-- Settles O41: each event named is one the table does not list for the state. -/
theorem unlistedEventsChangeNothing : Obligations.UnlistedEventsChangeNothing := by
  unfold Obligations.UnlistedEventsChangeNothing
  intro s
  refine ⟨?run, ?resume, ?hostWrite, hostPeek_eq_none, fun hst _ he => transitionOn_of_running hst he⟩
  case run => exact fun hidle => onEvent_of_not_listed hidle
  case resume => exact fun hin hout _ => onEvent_of_not_listed (not_or.2 ⟨hin, hout⟩)
  case hostWrite => exact fun hidle => ⟨fun _ _ => onEvent_of_not_listed hidle, fun _ => onEvent_of_not_listed hidle⟩

/-- Settles O43: the core does not move there, and the host's event, being neither reset nor resume, is not listed. -/
theorem suspendedCoreWaitsForTheHost : Obligations.SuspendedCoreWaitsForTheHost := by
  unfold Obligations.SuspendedCoreWaitsForTheHost
  intro s hst hrst hresume
  refine step_of_event_ignored ?_ fun e hev => onEvent_of_not_listed fun hlisted => ?_
  · intro hrun
    simp [hrun] at hst
  · obtain rfl | ⟨v, rfl⟩ := eq_rst_or_resume_of_listed hst hlisted
    · exact hrst hev
    · exact hresume v hev

/-! Events that the table lists: `cmd_run` in IDLE, `cmd_resume` in the suspend states (47_control_fsm.md R122, R125,
R127). -/

theorem onEvent_run_of_idle {s : State} (hst : s.st = .idle) : onEvent .run s = .next (s.setSt .running) := by
  simp only [onEvent, onRun, if_pos hst]

/-- The state a resume from AWAIT_INPUT leads to: the value stands at in_dest, which is no longer valid. -/
def State.inputTaken (s : State) (v : Word) : State :=
  ((s.setMem (memPut s.mem s.inDest.toNat v)).forgetInDest).setSt .running

theorem onEvent_resume_of_awaitInput {s : State} (hst : s.st = .awaitInput) (hdest : 0 ≤ s.inDest.toInt) (v : Word) :
    onEvent (.resume v) s = .next (s.inputTaken v) := by
  simp only [onEvent, onResume, hst, resumeInput, writeCell_ok hdest, Res.bind_ok, finish_ok, State.inputTaken]

theorem onEvent_resume_of_hasOutput {s : State} (hst : s.st = .hasOutput) (v : Word) :
    onEvent (.resume v) s = .next (s.forgetOutVal.setSt .running) := by
  simp only [onEvent, onResume, hst, resumeOutput, finish_ok]

theorem memGet_inputTaken {s : State} (hwf : s.mem.wf = true) (v : Word) (b : Nat) :
    memGet (s.inputTaken v).mem b = if b = s.inDest.toNat then v else memGet s.mem b := memGet_memPut hwf _ b v

/-- Settles O40: the step is the event. -/
theorem runStartsTheCoreFromIdle : Obligations.RunStartsTheCoreFromIdle := by
  unfold Obligations.RunStartsTheCoreFromIdle
  intro s hst hev
  rw [step_event hev]
  exact onEvent_run_of_idle (s := s.moveUsed) hst

/-- Settles O39: the step is the event, which besides the control state writes out_val alone. -/
theorem resumeAfterOutputRunsOn : Obligations.ResumeAfterOutputRunsOn := by
  unfold Obligations.ResumeAfterOutputRunsOn
  intro s v hst hev
  have hresume := onEvent_resume_of_hasOutput (s := s.moveUsed) hst v
  exact ⟨_, (step_event hev).trans hresume, rfl, rfl, rfl, rfl, rfl⟩

/-- Settles O38: the step is the event, whose one write is at in_dest; where in_dest is pc it is the word fetched next. -/
theorem resumeWritesTheInputAndRuns : Obligations.ResumeWritesTheInputAndRuns := by
  unfold Obligations.ResumeWritesTheInputAndRuns
  intro s v hst hev hwf hdest
  have hresume := onEvent_resume_of_awaitInput (s := s.moveUsed) hst hdest v
  have hread := memGet_inputTaken (s := s.moveUsed) hwf v
  have hdestReads : memGet (s.moveUsed.inputTaken v).mem s.inDest.toNat = v := (hread _).trans (if_pos rfl)
  refine ⟨_, (step_event hev).trans hresume, rfl, hdestReads, ?others, rfl, rfl, rfl, ?fetched⟩
  case others => exact fun b hb => (hread b).trans (if_neg hb)
  case fetched =>
    intro hpc
    rwa [hpc] at hdestReads

end Sys2Proof.Machine

/-! Errors (60_exceptions.md): that an instruction takes exactly the first of its errors, proved once for each format and
with overflowing results as a case of it; and what a failed step leaves, also after a resume. -/

namespace Sys2Proof.Machine

/-! The first error in order (60_exceptions.md R151). -/

/-- From `s` to `t` no error is taken: nothing new is recorded, and ERROR is not entered. -/
def NoErrorTaken (s t : State) : Prop :=
  t.errCause = s.errCause ∧ t.errPc = s.errPc ∧ (t.st = .error → s.st = .error)

theorem NoErrorTaken.refl (s : State) : NoErrorTaken s s := ⟨rfl, rfl, id⟩

section
variable {s t : State} (h : NoErrorTaken s t)
include h

theorem NoErrorTaken.setPc (v : Word) : NoErrorTaken s (t.setPc v) := h
theorem NoErrorTaken.setRb (v : Word) : NoErrorTaken s (t.setRb v) := h
theorem NoErrorTaken.setInDest (v : Word) : NoErrorTaken s (t.setInDest v) := h
theorem NoErrorTaken.setOutVal (v : Word) : NoErrorTaken s (t.setOutVal v) := h
theorem NoErrorTaken.setMem (m : Memory) : NoErrorTaken s (t.setMem m) := h

theorem NoErrorTaken.setSt (c : Ctrl) (hc : c ≠ .error) : NoErrorTaken s (t.setSt c) := by
  obtain ⟨hcause, herrPc, -⟩ := h
  exact ⟨hcause, herrPc, fun herror => absurd herror hc⟩

end

/-- The outcome takes the first error of the list from `s`, or where the list is empty a next state without an error. -/
def TakesFirstError (s : State) (l : List ErrCause) (o : Host.Outcome State Fault Refusal) : Prop :=
  match l with
  | c :: _ => o = .next (s.enterError c)
  | [] => ∃ t, o = .next t ∧ NoErrorTaken s t

theorem takesFirstError_finish {s t : State} (ht : NoErrorTaken s t) (l : List ErrCause) :
    TakesFirstError s l (finish s (raiseFirst l (.ok t))) := by
  cases l with
  | nil => exact ⟨t, rfl, ht⟩
  | cons c l => rfl

/-- The errors of a chain whose first part has the errors `l'` and its value `a`. -/
theorem raiseFirst_bind_raiseFirst {α β : Type} {x : Res α} {a : α} {l' : List ErrCause} (hx : x = raiseFirst l' (.ok a))
    (l : List ErrCause) (f : α → Res β) : raiseFirst l (x.bind f) = raiseFirst (l ++ l') (f a) := by
  rw [hx, raiseFirst_bind, Res.bind_ok, raiseFirst_append]

/-- The choice a conditional jump makes: the error of a taken jump's target, or pc at the target or past the instruction. -/
theorem jump_or_fall_eq_raiseFirst {s : State} {taken : Bool} {P : Prop} [Decidable P] (hP : taken = true ↔ P)
    (b n : Word) : (if taken then jumpTo s b else .ok (s.setPc n)) =
      raiseFirst (targetErrors P b) (.ok (s.setPc (if P then b else n))) := by
  rw [targetErrors, raiseFirst_errorIf]
  by_cases h : P
  · rw [if_pos (hP.2 h), if_pos h]
    obtain ⟨hok, hb⟩ | ⟨herr, hb⟩ := jumpTo_cases s b
    · rw [hok, if_neg fun hneg => not_lt.2 hb hneg.2]
    · rw [herr, if_pos ⟨h, hb⟩]
  · rw [if_neg (mt hP.1 h), if_neg fun hneg => h hneg.1, if_neg h]

section
variable {s : State} {m0 m1 m2 : ModeDigit} (hpc : 0 ≤ s.pc.toInt) {l errs : List ErrCause}
include hpc

/-- Format F3IIO, where the operation has the errors `errs`. -/
theorem threeParam_takesFirstError {op : Word → Word → Res Word} {r : Word}
    (hop : op (s.inValue m0 (s.param 0)) (s.inValue m1 (s.param 1)) = raiseFirst errs (.ok r))
    (hl : l = s.inErrors 0 m0 ++ s.inErrors 1 m1 ++ s.outErrors 2 m2 ++ errs) :
    TakesFirstError s (errorIf (s.pc.toInt = Config.maxW) .arithmeticOverflow ++ l)
      (finish s (threeParam op m0 m1 m2 s)) := by
  rw [threeParam_at hpc, raiseFirst_bind_raiseFirst hop, hl]
  simp only [List.append_assoc]
  exact takesFirstError_finish (((NoErrorTaken.refl s).setMem _).setPc _) _

/-- Format F2II, where the jump is taken when `P` holds. -/
theorem condJump_takesFirstError {taken : Word → Bool} {P : Prop} [Decidable P]
    (hP : taken (s.inValue m0 (s.param 0)) = true ↔ P) :
    TakesFirstError s (errorIf (s.pc.toInt = Config.maxW) .arithmeticOverflow ++
        (s.inErrors 0 m0 ++ s.inErrors 1 m1 ++ targetErrors P (s.inValue m1 (s.param 1))))
      (finish s (condJump taken m0 m1 s)) := by
  rw [condJump_at hpc, jump_or_fall_eq_raiseFirst hP, ← raiseFirst_append]
  simp only [List.append_assoc]
  exact takesFirstError_finish ((NoErrorTaken.refl s).setPc _) _

/-- Format F1I, where the effect has the errors `errs`. -/
theorem oneIn_takesFirstError {effect : Word → Res State} {t : State}
    (heff : effect (s.inValue m0 (s.param 0)) = raiseFirst errs (.ok t)) (ht : NoErrorTaken s t)
    (hl : l = s.inErrors 0 m0 ++ errs) :
    TakesFirstError s (errorIf (s.pc.toInt = Config.maxW) .arithmeticOverflow ++ l) (finish s (oneIn effect m0 s)) := by
  rw [oneIn_at hpc, raiseFirst_bind_raiseFirst heff, hl, ← List.append_assoc]
  exact takesFirstError_finish (ht.setPc _) _

/-- Format F1O, whose one instruction has an effect without errors. -/
theorem oneOut_takesFirstError {effect : Word → State} (ht : ∀ a, NoErrorTaken s (effect a)) :
    TakesFirstError s (errorIf (s.pc.toInt = Config.maxW) .arithmeticOverflow ++ s.outErrors 0 m0)
      (finish s (oneOut (fun a => .ok (effect a)) m0 s)) := by
  rw [oneOut_at hpc, Res.bind_ok]
  exact takesFirstError_finish ((ht _).setPc _) _

/-- Every instruction takes the first of its errors. -/
theorem exec_takesFirstError (i : Instr) : TakesFirstError s (errorsAt i s) (exec i s) := by
  cases i with
  | add | mul => exact threeParam_takesFirstError hpc (fit_at _) rfl
  | lt | eq => exact threeParam_takesFirstError hpc (errs := []) rfl (List.append_nil _).symm
  | jt => exact condJump_takesFirstError hpc condTrue_iff
  | jf => exact condJump_takesFirstError hpc condFalse_iff
  | inp => exact oneOut_takesFirstError hpc fun a => ((NoErrorTaken.refl s).setInDest a).setSt .awaitInput nofun
  | out =>
    have hkept := fun v => ((NoErrorTaken.refl s).setOutVal v).setSt .hasOutput nofun
    exact oneIn_takesFirstError hpc (errs := []) rfl (hkept _) (List.append_nil _).symm
  | arb m0 =>
    have hsum := raiseFirst_bind_raiseFirst (fit_at (s.rb.toInt + (s.inValue m0 (s.param 0)).toInt)) []
      fun v => .ok (s.setRb v)
    exact oneIn_takesFirstError hpc hsum ((NoErrorTaken.refl s).setRb _) rfl
  | hlt =>
    rw [exec, execHlt, advance_at, raiseFirst_bind, Res.bind_ok, errorsAt, List.append_nil]
    exact takesFirstError_finish (((NoErrorTaken.refl s).setSt .halted nofun).setPc _) _

/-- An instruction that has an error takes the first it has. -/
theorem exec_of_errorsAt_eq_cons {i : Instr} {c : ErrCause} (h : errorsAt i s = c :: l) :
    exec i s = .next (s.enterError c) := by
  have hfirst := exec_takesFirstError hpc i
  rwa [h] at hfirst

end

/-- Settles O24: the instructions by their formats; before them the step is the fetch's overflow at ADDR_MAX, and below it
the decoder's refusal. -/
theorem errorReportedIsTheFirstInOrder : Obligations.ErrorReportedIsTheFirstInOrder := by
  unfold Obligations.ErrorReportedIsTheFirstInOrder
  constructor
  · intro i s hpc
    exact exec_takesFirstError hpc i
  · intro s hst hev hpc
    rw [step_running hst hev, runStep_at (by rwa [onItsTurn_pc]), onItsTurn_pc, onItsTurn_word]
    refine ⟨fun hmax => if_pos hmax, fun hmax why hdec => ?_⟩
    rw [if_neg hmax.ne, hdec]

/-! Results outside Int_W (60_exceptions.md R146). -/

/-- An F3IIO instruction with every parameter resolvable has no error but the overflow of its result. -/
theorem exec_of_result_not_inRange {s : State} {i : Instr} {m0 m1 m2 : ModeDigit} {v : Int} (hfit : s.cellsFit 4)
    (h0 : s.readable m0 (s.param 0)) (h1 : s.readable m1 (s.param 1)) (h2 : s.writable m2 (s.param 2))
    (hi : errorsAt i s = errorIf (s.pc.toInt = Config.maxW) .arithmeticOverflow ++
      (s.inErrors 0 m0 ++ s.inErrors 1 m1 ++ s.outErrors 2 m2 ++ resultErrors v))
    (hout : ¬ inRange v) : exec i s = .next (s.enterError .arithmeticOverflow) := by
  have hresult : resultErrors v = [.arithmeticOverflow] := if_pos hout
  rw [errorIf_eq_nil.2 (by omega), inErrors_eq_nil.2 ⟨by omega, h0⟩, inErrors_eq_nil.2 ⟨by omega, h1⟩,
    outErrors_eq_nil.2 ⟨by omega, h2⟩, hresult] at hi
  exact exec_of_errorsAt_eq_cons hfit.1 hi

/-- Settles O27: the overflow of the result is the only error the instruction has. -/
theorem resultOutsideTheRangeOverflows : Obligations.ResultOutsideTheRangeOverflows := by
  unfold Obligations.ResultOutsideTheRangeOverflows
  intro s m0 m1 m2
  refine ⟨fun hfit h0 h1 h2 => ⟨?add, ?mul⟩, fun hfit h0 hout => ?arb⟩
  case add => exact exec_of_result_not_inRange hfit h0 h1 h2 rfl
  case mul => exact exec_of_result_not_inRange hfit h0 h1 h2 rfl
  case arb => rw [exec, execArb, oneIn_of_readable hfit h0, fit_err hout, Res.bind_err, Res.bind_err, finish_err]

/-! What a failed step leaves (60_exceptions.md R152, R153, R155). -/

/-- What an instruction commits from a state outside ERROR is outside ERROR. -/
theorem Commits.st_ne_error {i : Instr} {s t : State} (hst : s.st ≠ .error) (h : Commits i s t) : t.st ≠ .error := by
  obtain ⟨-, -, -, -, -, -, -, ht⟩ := h.frame
  rw [ht]
  split_ifs
  · nofun
  · nofun
  · nofun
  · exact hst

/-- The core's step that ends in ERROR is an error taken, with a cause. -/
theorem eq_enterError_of_step {s t : State} (hst : s.st = .running) (hev : s.hostEvent = none) (h : step s = .next t)
    (herror : t.st = .error) : ∃ c, c ≠ .none ∧ t = s.onItsTurn.enterError c := by
  obtain ⟨i, -, hexec⟩ | htaken := step_running_cases hst hev h
  · obtain hcommits | htaken := exec_next_cases hexec
    · exact absurd herror (hcommits.st_ne_error (by simp [hst]))
    · exact htaken
  · exact htaken

/-- Settles O25: taking an error keeps every field that the rule names. -/
theorem failedStepCommitsNothing : Obligations.FailedStepCommitsNothing := by
  unfold Obligations.FailedStepCommitsNothing
  intro s t hst hev h herror
  obtain ⟨c, hc, rfl⟩ := eq_enterError_of_step hst hev h herror
  exact ⟨rfl, hc, onItsTurn_pc s, onItsTurn_pc s, onItsTurn_rb s, onItsTurn_mem s, onItsTurn_inDest s,
    onItsTurn_outVal s⟩

/-- Settles O30: the resume leaves a running core with no event to come, and its failing step commits nothing. -/
theorem errorAfterAResumeKeepsTheInput : Obligations.ErrorAfterAResumeKeepsTheInput := by
  unfold Obligations.ErrorAfterAResumeKeepsTheInput
  intro s t u v hst hwf hdest hhost hresume hfail herror
  have hev : s.hostEvent = some (.resume v) := by simp [State.hostEvent, hhost, hst]
  have htaken : step s = .next (s.moveUsed.inputTaken v) :=
    (step_event hev).trans (onEvent_resume_of_awaitInput (s := s.moveUsed) hst hdest v)
  obtain rfl : s.moveUsed.inputTaken v = t := Host.Outcome.next.inj (htaken.symm.trans hresume)
  have hnone : (s.moveUsed.inputTaken v).hostEvent = none := by
    simp [State.hostEvent, State.inputTaken, State.moveUsed, hhost]
  obtain ⟨-, -, herrPc, -, -, hmem, -, -⟩ := failedStepCommitsNothing _ u rfl hnone hfail herror
  refine ⟨hmem, ?_, herrPc⟩
  rw [hmem]
  exact (memGet_inputTaken (s := s.moveUsed) hwf v _).trans (if_pos rfl)

/-! The codes (60_exceptions.md R141). -/

/-- No error kind has one of the two codes that are never produced (93_implementation_defined.md U15). -/
theorem causeCode_not_reserved (c : ErrCause) : causeCode c ≠ 5 ∧ causeCode c ≠ 7 := by
  cases c <;> decide

/-- Settles O49: the two tables as they are defined. -/
theorem statusCodesAreTheSpecs : Obligations.StatusCodesAreTheSpecs := by
  unfold Obligations.StatusCodesAreTheSpecs
  exact ⟨⟨rfl, rfl, rfl, rfl, rfl, rfl⟩, rfl, rfl, rfl, rfl, rfl, rfl, causeCode_not_reserved⟩

end Sys2Proof.Machine

/-! The reset event (70_reset_and_hazards.md R170, R171). -/

namespace Sys2Proof.Machine

/-- The reset event has its move in every control state, RUNNING included, so the step is the reset. -/
theorem step_rst {s : State} (hev : s.hostEvent = some .rst) : step s = .next (onReset s.moveUsed) :=
  step_event hev

/-- Reset writes no memory (70_reset_and_hazards.md R171). -/
@[simp] theorem onReset_mem (s : State) : (onReset s).mem = s.mem := rfl

/-- Settles O48: the step is `onReset` with the move used up; it sets the four registers and keeps memory. -/
theorem resetEventFromAnyState : Obligations.ResetEventFromAnyState := by
  unfold Obligations.ResetEventFromAnyState
  intro s hev
  exact ⟨onReset s.moveUsed, step_rst hev, rfl, rfl, rfl, rfl, onReset_mem s.moveUsed⟩

end Sys2Proof.Machine
